-- ==== Sys2Proof/Word.lean ====
section
/-! DEFINITION. The widths of the block (00_scope.md R7): words, bytes and register numbers. -/

namespace Sys2Proof

/-- A `Word32`: every register, the PC, every address and every data value (R7, R14). -/
abbrev Word := BitVec 32

/-- One byte: a byte lane of a slot, or one byte of the console (R33, R47). -/
abbrev Byte := BitVec 8

/-- A register number, 0 to 31: `NREG = 32` (R7, R77). -/
abbrev Reg := Fin 32

end Sys2Proof
end

