-- ==== Sys2Proof/Machine/Flags.lean ====
section
/-! DEFINITION. The block has no flags (10_state.md R35). Its conditions are the comparisons that branches and the
set-if-less instructions compute on the spot (00_scope.md R14; 43_control_transfer.md R131 to R136;
44_integer_alu.md R149, R150). -/

namespace Sys2Proof.Machine

/-- `s(x) < s(y)`. -/
def lessSigned (x y : Word) : Bool := decide (x.toInt < y.toInt)

/-- `u(x) < u(y)`. -/
def lessUnsigned (x y : Word) : Bool := decide (x.toNat < y.toNat)

/-- `c ? 1 : 0`. -/
def boolWord (c : Bool) : Word := if c then 1#32 else 0#32

end Sys2Proof.Machine
end

