-- ==== Sys2Proof/Config.lean ====
section
/-! DEFINITION. The implementation parameters of 00_scope.md R8 to R12, with the spec's defaults. -/

namespace Sys2Proof

/-- `NARROW_STORE` (R12, D6): what SB and SH write to the word slot. -/
inductive NarrowStore where
  | fullWord
  | maskedWord
  deriving DecidableEq, Repr

/-- `SYS4_SPACE : State → Bool` (R12, D10), which the spec leaves OPEN: when syscall 4 prints one space.
`constant b` is the constant function `b` (the spec's default is `constant false`); `unstated` is a function of
the state that nobody knows, `Config.sys4SpaceOfState`. DESIGN CHOICE, safe (log 3). -/
inductive Sys4Space where
  | constant (b : Bool)
  | unstated
  deriving DecidableEq, Repr

/-- The parameters a launch fixes (R8 to R12; D25: "a model should take every parameter as an argument").
They stand in `State.params`, so that a statement about every state is a statement about every setting (log 1). -/
structure Params where
  /-- `MEM_WORDS` (R8), below `2^30` so that `MEM_BYTES` fits the address space. DESIGN CHOICE, safe (log 11). Above
  `2^29`, where `MEM_BYTES` exceeds `2^31`, R42's remark that a negative address faults and R43's `InRange` disagree;
  the model follows R43, so such an address is in range when it is below `MEM_BYTES`. DESIGN CHOICE (log 11). -/
  memWords : Fin (2 ^ 30)
  /-- `TEXT_BASE` (R9). -/
  textBase : Word
  /-- `DATA_BASE` (R9). -/
  dataBase : Word
  /-- `TEXT_BOUND` (R9): the bound `run` tests. -/
  textBound : Word
  /-- `RESET_PC` (R9). -/
  resetPc : Word
  /-- `SP_RESET` (R10). -/
  spReset : Word
  /-- `GP_RESET` (R10). -/
  gpReset : Word
  /-- `SYSNUM_REG` (R11): the register that holds the syscall number. -/
  sysNumReg : Reg
  /-- `SYSARG_REG` (R11): the register that holds the syscall argument. -/
  sysArgReg : Reg
  narrowStore : NarrowStore
  /-- `HALT_ON_GAP` (R12). -/
  haltOnGap : Bool
  sys4Space : Sys4Space
  deriving DecidableEq, Repr

/-- The spec's defaults (R8 to R12). The two register presets and the two syscall registers are the spec's own
PRESUMED values (logs 4 and 5); the sizes are UNVERIFIED literals (log 18); the switches are log 17. -/
def Params.default : Params where
  memWords := 4096
  textBase := 0x0000#32
  dataBase := 0x2000#32
  textBound := 0x2000#32
  resetPc := 0#32
  spReset := 0x00003FFC#32
  gpReset := 0x00001800#32
  sysNumReg := 17
  sysArgReg := 10
  narrowStore := .fullWord
  haltOnGap := false
  sys4Space := .constant false

/-- `MEM_BYTES = 4 × MEM_WORDS` (R8). -/
def Params.memBytes (p : Params) : Nat := 4 * p.memWords.val

/-! ## The syscall numbers (R11)

They are constants and not launch parameters. The spec leaves that open: 00_scope.md section 4 calls every number of the
section a named parameter, while its D9 and D25 list only the two registers and the sizes and addresses, and
45_system.md names the syscalls by the numbers 1, 4 and 10. DESIGN CHOICE, unsafe for a block with other numbers
(log 22). -/

/-- `SYS_PRINT_INT` (R11). A constant: DESIGN CHOICE (log 22). -/
def Config.sysPrintInt : Word := 1#32

/-- `SYS_PRINT_STR` (R11). A constant: DESIGN CHOICE (log 22). -/
def Config.sysPrintStr : Word := 4#32

/-- `SYS_EXIT` (R11). A constant: DESIGN CHOICE (log 22). -/
def Config.sysExit : Word := 10#32

/-! ## The power-on image -/

/-- `MEM_INIT` (R12, R28, D16), byte by byte: what memory holds at power-on. The spec gives it NO DEFAULT and says that
a model must not assume 0. A FREE VALUE: it has no body, and no proof can see a value of it (log 2). -/
opaque Config.memInit : Nat → Byte

end Sys2Proof
end

