-- ==== Sys2Proof/Syntax.lean ====
section
/-! DEFINITION. The 38 instructions (00_scope.md R2), one constructor per row of spec/opcode_table.json, and the
record the field extractors build (30_encoding.md R61, R69). -/

namespace Sys2Proof

/-- The names of the 38 instructions, in the source's order (R2). -/
inductive Op where
  | lui | auipc
  | lb | lh | lw | lbu | lhu
  | sb | sh | sw
  | beq | bne | blt | bge | bltu | bgeu
  | jal | jalr
  | add | sub | sll | slt | sltu | xor | srl | sra | or | and
  | addi | ori | slti | xori | andi | sltiu | slli | srli | srai
  | ecall
  deriving DecidableEq, Repr

/-- An instruction with its operands. An immediate is the `Word32` the spec's rules use: `immI`, `immS`, `immB`,
`immU` or `immJ`, already extended (R63 to R67); `WellFormed` says which words an encoding admits. -/
inductive Instr where
  | lui (rd : Reg) (imm : Word)
  | auipc (rd : Reg) (imm : Word)
  | lb (rd rs1 : Reg) (imm : Word)
  | lh (rd rs1 : Reg) (imm : Word)
  | lw (rd rs1 : Reg) (imm : Word)
  | lbu (rd rs1 : Reg) (imm : Word)
  | lhu (rd rs1 : Reg) (imm : Word)
  | sb (rs1 rs2 : Reg) (imm : Word)
  | sh (rs1 rs2 : Reg) (imm : Word)
  | sw (rs1 rs2 : Reg) (imm : Word)
  | beq (rs1 rs2 : Reg) (imm : Word)
  | bne (rs1 rs2 : Reg) (imm : Word)
  | blt (rs1 rs2 : Reg) (imm : Word)
  | bge (rs1 rs2 : Reg) (imm : Word)
  | bltu (rs1 rs2 : Reg) (imm : Word)
  | bgeu (rs1 rs2 : Reg) (imm : Word)
  | jal (rd : Reg) (imm : Word)
  | jalr (rd rs1 : Reg) (imm : Word)
  | add (rd rs1 rs2 : Reg)
  | sub (rd rs1 rs2 : Reg)
  | sll (rd rs1 rs2 : Reg)
  | slt (rd rs1 rs2 : Reg)
  | sltu (rd rs1 rs2 : Reg)
  | xor (rd rs1 rs2 : Reg)
  | srl (rd rs1 rs2 : Reg)
  | sra (rd rs1 rs2 : Reg)
  | or (rd rs1 rs2 : Reg)
  | and (rd rs1 rs2 : Reg)
  | addi (rd rs1 : Reg) (imm : Word)
  | ori (rd rs1 : Reg) (imm : Word)
  | slti (rd rs1 : Reg) (imm : Word)
  | xori (rd rs1 : Reg) (imm : Word)
  | andi (rd rs1 : Reg) (imm : Word)
  | sltiu (rd rs1 : Reg) (imm : Word)
  | slli (rd rs1 : Reg) (shamt : BitVec 5)
  | srli (rd rs1 : Reg) (shamt : BitVec 5)
  | srai (rd rs1 : Reg) (shamt : BitVec 5)
  | ecall
  deriving DecidableEq, Repr

/-- Which of the 38 an instruction is. -/
def Instr.op : Instr → Op
  | .lui _ _ => .lui
  | .auipc _ _ => .auipc
  | .lb _ _ _ => .lb
  | .lh _ _ _ => .lh
  | .lw _ _ _ => .lw
  | .lbu _ _ _ => .lbu
  | .lhu _ _ _ => .lhu
  | .sb _ _ _ => .sb
  | .sh _ _ _ => .sh
  | .sw _ _ _ => .sw
  | .beq _ _ _ => .beq
  | .bne _ _ _ => .bne
  | .blt _ _ _ => .blt
  | .bge _ _ _ => .bge
  | .bltu _ _ _ => .bltu
  | .bgeu _ _ _ => .bgeu
  | .jal _ _ => .jal
  | .jalr _ _ _ => .jalr
  | .add _ _ _ => .add
  | .sub _ _ _ => .sub
  | .sll _ _ _ => .sll
  | .slt _ _ _ => .slt
  | .sltu _ _ _ => .sltu
  | .xor _ _ _ => .xor
  | .srl _ _ _ => .srl
  | .sra _ _ _ => .sra
  | .or _ _ _ => .or
  | .and _ _ _ => .and
  | .addi _ _ _ => .addi
  | .ori _ _ _ => .ori
  | .slti _ _ _ => .slti
  | .xori _ _ _ => .xori
  | .andi _ _ _ => .andi
  | .sltiu _ _ _ => .sltiu
  | .slli _ _ _ => .slli
  | .srli _ _ _ => .srli
  | .srai _ _ _ => .srai
  | .ecall => .ecall

/-- The source's "Decoded Instruction": every field and every immediate of a word, whatever its format
(R61, R69). It is no state (R34). -/
structure Fields where
  opcode : BitVec 7
  rd : Reg
  funct3 : BitVec 3
  rs1 : Reg
  rs2 : Reg
  funct7 : BitVec 7
  shamt : BitVec 5
  immI : Word
  immS : Word
  immB : Word
  immU : Word
  immJ : Word
  deriving DecidableEq, Repr

/-- The instruction families of the first dispatch level (R71). -/
inductive Family where
  | lui | auipc | jal | jalr | branch | load | store | opImm | op | system
  deriving DecidableEq, Repr

/-- Why a word is a decode gap (R78): the level of the dispatch tree that has no case for it, or, for a byte
sequence, that it is shorter than the one instruction length (R60). -/
inductive Gap where
  /-- The opcode is none of R71. -/
  | opcode
  /-- The funct3 cell is a gap in R72. -/
  | funct3
  /-- The funct7 value selects nothing (R73). -/
  | funct7
  /-- A SYSTEM word other than `0x00000073` (R74). -/
  | system
  /-- Fewer than four bytes were given to the byte decoder (R60). -/
  | truncated
  deriving DecidableEq, Repr

end Sys2Proof
end

