-- ==== Sys2Proof/Decode.lean ====
section
/-! DEFINITION. Decoding and encoding (30_encoding.md). The field positions and the immediates are the source's;
every opcode, funct3 and funct7 value is RV32I's, PRESUMED by the spec itself (R71 to R76, log 6). -/

namespace Sys2Proof

/-- `sext_N(v)` (R15): the low `n` bits of `v`, bit `n − 1` copied into all higher bits. -/
def sext (n : Nat) (v : Word) : Word := (v.setWidth n).signExtend 32

/-- `zext_N(v)` (R15): the low `n` bits of `v`, zeros above. -/
def zext (n : Nat) (v : Word) : Word := (v.setWidth n).setWidth 32

/-- R63: `sext_12(w[31:20])`. -/
def immI (w : Word) : Word := (w.extractLsb' 20 12).signExtend 32

/-- R64: `sext_12(w[31:25] ‖ w[11:7])`. -/
def immS (w : Word) : Word := (w.extractLsb' 25 7 ++ w.extractLsb' 7 5).signExtend 32

/-- R65: `sext_13(w[31] ‖ w[7] ‖ w[30:25] ‖ w[11:8] ‖ 0)`. -/
def immB (w : Word) : Word :=
  (w.extractLsb' 31 1 ++ w.extractLsb' 7 1 ++ w.extractLsb' 25 6 ++ w.extractLsb' 8 4 ++ 0#1).signExtend 32

/-- R66 and 90_conflicts.md C2: `w[31:12] ‖ 0^12`. -/
def immU (w : Word) : Word := w.extractLsb' 12 20 ++ 0#12

/-- R67: `sext_21(w[31] ‖ w[19:12] ‖ w[20] ‖ w[30:21] ‖ 0)`. -/
def immJ (w : Word) : Word :=
  (w.extractLsb' 31 1 ++ w.extractLsb' 12 8 ++ w.extractLsb' 20 1 ++ w.extractLsb' 21 10 ++ 0#1).signExtend 32

/-- Field extraction, the same for every word (R61, R69). -/
def fieldsOf (w : Word) : Fields where
  opcode := w.extractLsb' 0 7
  rd := (w.extractLsb' 7 5).toFin
  funct3 := w.extractLsb' 12 3
  rs1 := (w.extractLsb' 15 5).toFin
  rs2 := (w.extractLsb' 20 5).toFin
  funct7 := w.extractLsb' 25 7
  shamt := w.extractLsb' 20 5
  immI := immI w
  immS := immS w
  immB := immB w
  immU := immU w
  immJ := immJ w

/-- Level 1 (R71). -/
def familyOf (opcode : BitVec 7) : Option Family :=
  match opcode with
  | 0b0110111#7 => some .lui
  | 0b0010111#7 => some .auipc
  | 0b1101111#7 => some .jal
  | 0b1100111#7 => some .jalr
  | 0b1100011#7 => some .branch
  | 0b0000011#7 => some .load
  | 0b0100011#7 => some .store
  | 0b0010011#7 => some .opImm
  | 0b0110011#7 => some .op
  | 0b1110011#7 => some .system
  | _ => none

/-- Level 2 of JALR (R72). -/
def selectJalr (d : Fields) : Except Gap Instr :=
  match d.funct3 with
  | 0b000#3 => .ok (.jalr d.rd d.rs1 d.immI)
  | _ => .error .funct3

/-- Level 2 of BRANCH (R72). -/
def selectBranch (d : Fields) : Except Gap Instr :=
  match d.funct3 with
  | 0b000#3 => .ok (.beq d.rs1 d.rs2 d.immB)
  | 0b001#3 => .ok (.bne d.rs1 d.rs2 d.immB)
  | 0b100#3 => .ok (.blt d.rs1 d.rs2 d.immB)
  | 0b101#3 => .ok (.bge d.rs1 d.rs2 d.immB)
  | 0b110#3 => .ok (.bltu d.rs1 d.rs2 d.immB)
  | 0b111#3 => .ok (.bgeu d.rs1 d.rs2 d.immB)
  | _ => .error .funct3

/-- Level 2 of LOAD (R72). -/
def selectLoad (d : Fields) : Except Gap Instr :=
  match d.funct3 with
  | 0b000#3 => .ok (.lb d.rd d.rs1 d.immI)
  | 0b001#3 => .ok (.lh d.rd d.rs1 d.immI)
  | 0b010#3 => .ok (.lw d.rd d.rs1 d.immI)
  | 0b100#3 => .ok (.lbu d.rd d.rs1 d.immI)
  | 0b101#3 => .ok (.lhu d.rd d.rs1 d.immI)
  | _ => .error .funct3

/-- Level 2 of STORE (R72). -/
def selectStore (d : Fields) : Except Gap Instr :=
  match d.funct3 with
  | 0b000#3 => .ok (.sb d.rs1 d.rs2 d.immS)
  | 0b001#3 => .ok (.sh d.rs1 d.rs2 d.immS)
  | 0b010#3 => .ok (.sw d.rs1 d.rs2 d.immS)
  | _ => .error .funct3

/-- Levels 2 and 3 of OP-IMM (R72, R73); the shifts take `shamt`, the others `immI` (R70). -/
def selectOpImm (d : Fields) : Except Gap Instr :=
  match d.funct3 with
  | 0b000#3 => .ok (.addi d.rd d.rs1 d.immI)
  | 0b001#3 =>
    match d.funct7 with
    | 0b0000000#7 => .ok (.slli d.rd d.rs1 d.shamt)
    | _ => .error .funct7
  | 0b010#3 => .ok (.slti d.rd d.rs1 d.immI)
  | 0b011#3 => .ok (.sltiu d.rd d.rs1 d.immI)
  | 0b100#3 => .ok (.xori d.rd d.rs1 d.immI)
  | 0b101#3 =>
    match d.funct7 with
    | 0b0000000#7 => .ok (.srli d.rd d.rs1 d.shamt)
    | 0b0100000#7 => .ok (.srai d.rd d.rs1 d.shamt)
    | _ => .error .funct7
  | 0b110#3 => .ok (.ori d.rd d.rs1 d.immI)
  | 0b111#3 => .ok (.andi d.rd d.rs1 d.immI)
  | _ => .error .funct3

/-- Levels 2 and 3 of OP (R72, R73). -/
def selectOp (d : Fields) : Except Gap Instr :=
  match d.funct7 with
  | 0b0000000#7 =>
    match d.funct3 with
    | 0b000#3 => .ok (.add d.rd d.rs1 d.rs2)
    | 0b001#3 => .ok (.sll d.rd d.rs1 d.rs2)
    | 0b010#3 => .ok (.slt d.rd d.rs1 d.rs2)
    | 0b011#3 => .ok (.sltu d.rd d.rs1 d.rs2)
    | 0b100#3 => .ok (.xor d.rd d.rs1 d.rs2)
    | 0b101#3 => .ok (.srl d.rd d.rs1 d.rs2)
    | 0b110#3 => .ok (.or d.rd d.rs1 d.rs2)
    | 0b111#3 => .ok (.and d.rd d.rs1 d.rs2)
    | _ => .error .funct3
  | 0b0100000#7 =>
    match d.funct3 with
    | 0b000#3 => .ok (.sub d.rd d.rs1 d.rs2)
    | 0b101#3 => .ok (.sra d.rd d.rs1 d.rs2)
    | _ => .error .funct7
  | _ => .error .funct7

/-- SYSTEM (R74): only the one word `0x00000073` is ECALL. -/
def selectSystem (w : Word) : Except Gap Instr :=
  if w = 0x00000073#32 then .ok .ecall else .error .system

/-- The dispatch tree (R71 to R75), total: an instruction, or the reason the word is a decode gap (R78). -/
def decodeWord (w : Word) : Except Gap Instr :=
  let d := fieldsOf w
  match familyOf d.opcode with
  | none => .error .opcode
  | some .lui => .ok (.lui d.rd d.immU)
  | some .auipc => .ok (.auipc d.rd d.immU)
  | some .jal => .ok (.jal d.rd d.immJ)
  | some .jalr => selectJalr d
  | some .branch => selectBranch d
  | some .load => selectLoad d
  | some .store => selectStore d
  | some .opImm => selectOpImm d
  | some .op => selectOp d
  | some .system => selectSystem w

/-- Four bytes in address order as one slot, little-endian (R48): `b0 | b1 << 8 | b2 << 16 | b3 << 24`. -/
def wordOfBytes (b0 b1 b2 b3 : Byte) : Word := b3 ++ b2 ++ b1 ++ b0

/-- Byte lane `k` of a slot, lane 0 the least significant (R47). -/
def laneOf (w : Word) (k : Nat) : Byte := w.extractLsb' (8 * k) 8

/-- The four bytes of a slot in address order (R47, R48). -/
def bytesOf (w : Word) : List Byte := [laneOf w 0, laneOf w 1, laneOf w 2, laneOf w 3]

/-- Decoding from memory bytes: the first four bytes are one word (R48, R60), and the rest is handed back. -/
def decodeBytes : List Byte → Except Gap (Instr × List Byte)
  | b0 :: b1 :: b2 :: b3 :: rest =>
    match decodeWord (wordOfBytes b0 b1 b2 b3) with
    | .ok i => .ok (i, rest)
    | .error g => .error g
  | _ => .error .truncated

/-- A word of spec/opcode_table.json of `nbits` bits, zeros above, laid out in memory order and decoded. -/
def decodeTableWord (nbits w : Nat) : Option Instr :=
  match decodeBytes (bytesOf (BitVec.ofNat 32 (w % 2 ^ nbits))) with
  | .ok (i, _) => some i
  | .error _ => none

/-! ## The opcode table (R75, R76) -/

/-- The `match` column of the opcode table (R76). -/
def Op.matchBits : Op → Word
  | .lui => 0x00000037#32
  | .auipc => 0x00000017#32
  | .lb => 0x00000003#32
  | .lh => 0x00001003#32
  | .lw => 0x00002003#32
  | .lbu => 0x00004003#32
  | .lhu => 0x00005003#32
  | .sb => 0x00000023#32
  | .sh => 0x00001023#32
  | .sw => 0x00002023#32
  | .beq => 0x00000063#32
  | .bne => 0x00001063#32
  | .blt => 0x00004063#32
  | .bge => 0x00005063#32
  | .bltu => 0x00006063#32
  | .bgeu => 0x00007063#32
  | .jal => 0x0000006F#32
  | .jalr => 0x00000067#32
  | .add => 0x00000033#32
  | .sub => 0x40000033#32
  | .sll => 0x00001033#32
  | .slt => 0x00002033#32
  | .sltu => 0x00003033#32
  | .xor => 0x00004033#32
  | .srl => 0x00005033#32
  | .sra => 0x40005033#32
  | .or => 0x00006033#32
  | .and => 0x00007033#32
  | .addi => 0x00000013#32
  | .ori => 0x00006013#32
  | .slti => 0x00002013#32
  | .xori => 0x00004013#32
  | .andi => 0x00007013#32
  | .sltiu => 0x00003013#32
  | .slli => 0x00001013#32
  | .srli => 0x00005013#32
  | .srai => 0x40005013#32
  | .ecall => 0x00000073#32

/-- The `mask` column of the opcode table (R76): the opcode; with funct3; with funct3 and funct7; the whole word. -/
def Op.maskBits : Op → Word
  | .lui | .auipc | .jal => 0x0000007F#32
  | .lb | .lh | .lw | .lbu | .lhu | .sb | .sh | .sw => 0x0000707F#32
  | .beq | .bne | .blt | .bge | .bltu | .bgeu | .jalr => 0x0000707F#32
  | .addi | .ori | .slti | .xori | .andi | .sltiu => 0x0000707F#32
  | .add | .sub | .sll | .slt | .sltu | .xor | .srl | .sra | .or | .and => 0xFE00707F#32
  | .slli | .srli | .srai => 0xFE00707F#32
  | .ecall => 0xFFFFFFFF#32

/-- R75: the word matches the row of `o`. -/
def Op.matches (o : Op) (w : Word) : Bool := (w &&& o.maskBits) == o.matchBits

/-! ## Encoding: the layouts of R62, written from the same table -/

/-- A register number as a 5-bit field. -/
def regBits (r : Reg) : BitVec 5 := BitVec.ofFin r

def packR (funct7 : BitVec 7) (rs2 rs1 : Reg) (funct3 : BitVec 3) (rd : Reg) (opcode : BitVec 7) : Word :=
  funct7 ++ regBits rs2 ++ regBits rs1 ++ funct3 ++ regBits rd ++ opcode

def packI (imm : Word) (rs1 : Reg) (funct3 : BitVec 3) (rd : Reg) (opcode : BitVec 7) : Word :=
  imm.extractLsb' 0 12 ++ regBits rs1 ++ funct3 ++ regBits rd ++ opcode

def packShift (funct7 : BitVec 7) (shamt : BitVec 5) (rs1 : Reg) (funct3 : BitVec 3) (rd : Reg)
    (opcode : BitVec 7) : Word :=
  funct7 ++ shamt ++ regBits rs1 ++ funct3 ++ regBits rd ++ opcode

def packS (imm : Word) (rs2 rs1 : Reg) (funct3 : BitVec 3) (opcode : BitVec 7) : Word :=
  imm.extractLsb' 5 7 ++ regBits rs2 ++ regBits rs1 ++ funct3 ++ imm.extractLsb' 0 5 ++ opcode

def packB (imm : Word) (rs2 rs1 : Reg) (funct3 : BitVec 3) (opcode : BitVec 7) : Word :=
  imm.extractLsb' 12 1 ++ imm.extractLsb' 5 6 ++ regBits rs2 ++ regBits rs1 ++ funct3 ++
    imm.extractLsb' 1 4 ++ imm.extractLsb' 11 1 ++ opcode

def packU (imm : Word) (rd : Reg) (opcode : BitVec 7) : Word :=
  imm.extractLsb' 12 20 ++ regBits rd ++ opcode

def packJ (imm : Word) (rd : Reg) (opcode : BitVec 7) : Word :=
  imm.extractLsb' 20 1 ++ imm.extractLsb' 1 10 ++ imm.extractLsb' 11 1 ++ imm.extractLsb' 12 8 ++
    regBits rd ++ opcode

/-- The word of an instruction (R62 with the values of R71 to R74). -/
def encode : Instr → Word
  | .lui rd imm => packU imm rd 0b0110111#7
  | .auipc rd imm => packU imm rd 0b0010111#7
  | .lb rd rs1 imm => packI imm rs1 0b000#3 rd 0b0000011#7
  | .lh rd rs1 imm => packI imm rs1 0b001#3 rd 0b0000011#7
  | .lw rd rs1 imm => packI imm rs1 0b010#3 rd 0b0000011#7
  | .lbu rd rs1 imm => packI imm rs1 0b100#3 rd 0b0000011#7
  | .lhu rd rs1 imm => packI imm rs1 0b101#3 rd 0b0000011#7
  | .sb rs1 rs2 imm => packS imm rs2 rs1 0b000#3 0b0100011#7
  | .sh rs1 rs2 imm => packS imm rs2 rs1 0b001#3 0b0100011#7
  | .sw rs1 rs2 imm => packS imm rs2 rs1 0b010#3 0b0100011#7
  | .beq rs1 rs2 imm => packB imm rs2 rs1 0b000#3 0b1100011#7
  | .bne rs1 rs2 imm => packB imm rs2 rs1 0b001#3 0b1100011#7
  | .blt rs1 rs2 imm => packB imm rs2 rs1 0b100#3 0b1100011#7
  | .bge rs1 rs2 imm => packB imm rs2 rs1 0b101#3 0b1100011#7
  | .bltu rs1 rs2 imm => packB imm rs2 rs1 0b110#3 0b1100011#7
  | .bgeu rs1 rs2 imm => packB imm rs2 rs1 0b111#3 0b1100011#7
  | .jal rd imm => packJ imm rd 0b1101111#7
  | .jalr rd rs1 imm => packI imm rs1 0b000#3 rd 0b1100111#7
  | .add rd rs1 rs2 => packR 0b0000000#7 rs2 rs1 0b000#3 rd 0b0110011#7
  | .sub rd rs1 rs2 => packR 0b0100000#7 rs2 rs1 0b000#3 rd 0b0110011#7
  | .sll rd rs1 rs2 => packR 0b0000000#7 rs2 rs1 0b001#3 rd 0b0110011#7
  | .slt rd rs1 rs2 => packR 0b0000000#7 rs2 rs1 0b010#3 rd 0b0110011#7
  | .sltu rd rs1 rs2 => packR 0b0000000#7 rs2 rs1 0b011#3 rd 0b0110011#7
  | .xor rd rs1 rs2 => packR 0b0000000#7 rs2 rs1 0b100#3 rd 0b0110011#7
  | .srl rd rs1 rs2 => packR 0b0000000#7 rs2 rs1 0b101#3 rd 0b0110011#7
  | .sra rd rs1 rs2 => packR 0b0100000#7 rs2 rs1 0b101#3 rd 0b0110011#7
  | .or rd rs1 rs2 => packR 0b0000000#7 rs2 rs1 0b110#3 rd 0b0110011#7
  | .and rd rs1 rs2 => packR 0b0000000#7 rs2 rs1 0b111#3 rd 0b0110011#7
  | .addi rd rs1 imm => packI imm rs1 0b000#3 rd 0b0010011#7
  | .ori rd rs1 imm => packI imm rs1 0b110#3 rd 0b0010011#7
  | .slti rd rs1 imm => packI imm rs1 0b010#3 rd 0b0010011#7
  | .xori rd rs1 imm => packI imm rs1 0b100#3 rd 0b0010011#7
  | .andi rd rs1 imm => packI imm rs1 0b111#3 rd 0b0010011#7
  | .sltiu rd rs1 imm => packI imm rs1 0b011#3 rd 0b0010011#7
  | .slli rd rs1 shamt => packShift 0b0000000#7 shamt rs1 0b001#3 rd 0b0010011#7
  | .srli rd rs1 shamt => packShift 0b0000000#7 shamt rs1 0b101#3 rd 0b0010011#7
  | .srai rd rs1 shamt => packShift 0b0100000#7 shamt rs1 0b101#3 rd 0b0010011#7
  | .ecall => 0x00000073#32

/-- The bytes of an instruction in memory order (R48). -/
def encodeBytes (i : Instr) : List Byte := bytesOf (encode i)

end Sys2Proof
end

