-- ==== Sys2Proof/Machine/Memory.lean ====
section
/-! DEFINITION. The memory array `M` as plain data (10_state.md R28, 20_memory.md R40 to R48). Storage is selected by
word slot; a slot is held as its four bytes, little-endian, as R47 and R48 number its lanes (DEDUCED, safe, log 10). -/

namespace Sys2Proof.Machine

/-- A sparse memory: (byte address, byte) cells, in the canonical form `Memory.wf`. -/
abbrev Memory := List Host.Cell

/-- What an address no cell lists reads as: its byte of `MEM_INIT`, which the model knows nothing of (R28, log 2). -/
def Memory.unlisted (address : Nat) : Byte := Config.memInit address

/-- The canonical form: addresses strictly rising. A cell is never left out for saying what an unlisted address reads
as, since no byte of `MEM_INIT` is known: the listed addresses are those given or written (log 10). -/
abbrev Memory.wf (m : Memory) : Prop := m.Pairwise (fun c d => c.1 < d.1)

/-- Every listed address is below `bound`. -/
abbrev Memory.below (m : Memory) (bound : Nat) : Prop := ∀ c ∈ m, c.1 < bound

/-- The byte at an address. -/
def Memory.readByte : Memory → Nat → Byte
  | [], a => Memory.unlisted a
  | (a', b) :: rest, a => if a = a' then b else Memory.readByte rest a

/-- Replaces the byte at an address, keeping the canonical form. -/
def Memory.writeByte : Memory → Nat → Byte → Memory
  | [], a, b => [(a, b)]
  | (a', b') :: rest, a, b =>
    if a < a' then (a, b) :: (a', b') :: rest
    else if a = a' then (a, b) :: rest
    else (a', b') :: Memory.writeByte rest a b

/-- The slot `M[j]` (R41): bytes `4j` to `4j + 3`, little-endian (R48). -/
def Memory.readSlot (m : Memory) (j : Nat) : Word :=
  wordOfBytes (m.readByte (4 * j)) (m.readByte (4 * j + 1)) (m.readByte (4 * j + 2)) (m.readByte (4 * j + 3))

/-- `M[j] <- v` (R45): the whole slot and no other. -/
def Memory.writeSlot (m : Memory) (j : Nat) (v : Word) : Memory :=
  (((m.writeByte (4 * j) (laneOf v 0)).writeByte (4 * j + 1) (laneOf v 1)).writeByte (4 * j + 2)
    (laneOf v 2)).writeByte (4 * j + 3) (laneOf v 3)

end Sys2Proof.Machine
end

