-- ==== Sys2Proof/Machine/State.lean ====
section
/-! DEFINITION. The state of the block (10_state.md R20 to R33), the reasons the machine could stop, and the state
after reset (70_reset_and_hazards.md R200). -/

namespace Sys2Proof.Machine

/-- `halt` (R29): why the block has stopped. -/
inductive Halt where
  /-- `NONE`: the block can step. -/
  | none
  /-- `EXIT`: ECALL with `SYS_EXIT` executed (R173). -/
  | exit
  /-- `FAULT`: a fault was raised (R181). -/
  | fault
  /-- `GAP`: a decode gap executed under `HALT_ON_GAP` (R80). -/
  | gap
  deriving DecidableEq, Repr

/-- The four fault kinds, in the order of their ordinals 0 to 3 (R182). -/
inductive FaultKind where
  | fetch
  | load
  | store
  | syscallRead
  deriving DecidableEq, Repr

/-- The fault record `{kind, pc_of, addr}` (R30). -/
structure FaultRecord where
  kind : FaultKind
  pcOf : Word
  addr : Word
  deriving DecidableEq, Repr

/-- The state tuple `(X, pc, ppc, M, halt, fault, gap_seen, started, OUT)` of 10_state.md, and the launch's
parameters (log 1). -/
structure State where
  /-- `X` (R20). Slot 0 stands for `x0` and is never read (R21, log 16). -/
  regs : Vector Word 32
  /-- `pc` (R24): between steps, the address of the next instruction to fetch. -/
  pc : Word
  /-- `ppc` (R25): while an instruction executes, its own address. -/
  ppc : Word
  /-- `M` (R28). -/
  mem : Memory
  /-- `halt` (R29). -/
  halt : Halt
  /-- `fault` (R30). -/
  fault : Option FaultRecord
  /-- `gap_seen` (R31). -/
  gapSeen : Bool
  /-- `started` (R32). -/
  started : Bool
  /-- `OUT` (R33): the bytes sent to the console, in order. -/
  out : List Byte
  /-- The parameters of the launch (R8 to R12, R207); nothing changes them. -/
  params : Params
  deriving DecidableEq, Repr

/-- Reasons the machine stops with a fault: NONE. A fault of the block halts it in a state the spec describes
(R181), so it is a next state; no definition of the model answers `Outcome.fault`. Safe (log 7). -/
inductive Fault where
  deriving DecidableEq, Repr

/-- Reasons the machine gives an instruction no meaning. -/
inductive Refusal where
  /-- Raised only by an arm of `exec` whose instruction has no meaning yet; no arm is such an arm. Safe. -/
  | notModelled (mnemonic : String)
  deriving DecidableEq, Repr

/-- What a meaning and a step answer. -/
abbrev Result := Host.Outcome State Fault Refusal

/-- The register file of a reset (R22): `x2 = SP_RESET`, `x3 = GP_RESET`, every other register 0. -/
def resetRegs (p : Params) : Vector Word 32 :=
  ((Vector.replicate 32 0#32).set 2 p.spReset).set 3 p.gpReset

/-- The launch state for given parameters and the bytes of the power-on image `MEM_INIT` that are given (R200, R202,
R207); the bytes `memInit` does not list stay unknown (log 2). -/
def State.launch (p : Params) (memInit : Memory) : State where
  regs := resetRegs p
  pc := p.resetPc
  ppc := 0#32
  mem := memInit
  halt := .none
  fault := none
  gapSeen := false
  started := false
  out := []
  params := p

/-- The machine right after reset, at power-on, with the spec's default parameters (R200). It lists no byte: all of
memory holds the unknown `MEM_INIT` (R28, log 2). -/
def State.reset : State := State.launch Params.default []

end Sys2Proof.Machine

/-- The unknown function behind `Sys4Space.unstated`: when syscall 4 prints one space, where a launch leaves
`SYS4_SPACE` open (R12, D10). A FREE VALUE: it has no body, and no proof can see what it answers (log 3). -/
opaque Sys2Proof.Config.sys4SpaceOfState : Sys2Proof.Machine.State → Bool
end

