-- ==== Sys2Proof/Machine/Ops.lean ====
section
/-! DEFINITION. The named operations over registers and memory, fetching, taking a fault, the decode gap, and reset,
which is the only way out of a halt (00_scope.md R16 to R18; 20_memory.md R43 to R47; 40_step_driver.md R91, R92;
60_exceptions.md R181; 70_reset_and_hazards.md R200). -/

namespace Sys2Proof.Machine

/-! ## Registers -/

/-- `x[i]` (R16, R21): `x0` reads 0. -/
def State.getReg (s : State) (i : Reg) : Word := if i = 0 then 0#32 else s.regs[i.val]

/-- `x[i] <- v` (R16, R21): a write to `x0` is discarded. -/
def State.setReg (s : State) (i : Reg) (v : Word) : State :=
  if i = 0 then s else { s with regs := s.regs.set i.val v }

/-- `pc <- target` (R16). -/
def State.setPc (s : State) (target : Word) : State := { s with pc := target }

/-! ## Memory -/

/-- `InRange(a) := u(a) < MEM_BYTES` (R43). -/
def State.inRange (s : State) (a : Word) : Bool := decide (a.toNat < s.params.memBytes)

/-- The slot a byte address selects: `u(a) >> 2` (R41). -/
def slotIndex (a : Word) : Nat := a.toNat >>> 2

/-- `MemRead(a, 4)` (R44); callers test `inRange` first. -/
def State.memRead (s : State) (a : Word) : Word := s.mem.readSlot (slotIndex a)

/-- `MemWrite(a, 4, v)` (R45); callers test `inRange` first. -/
def State.memWrite (s : State) (a : Word) (v : Word) : State :=
  { s with mem := s.mem.writeSlot (slotIndex a) v }

/-- `ByteView(a) := (M[u(a) >> 2] >>u (8 · (u(a) mod 4)))[7:0]` (R47). -/
def State.byteView (s : State) (a : Word) : Byte :=
  (s.memRead a >>> (8 * (a.toNat % 4))).extractLsb' 0 8

/-! ## Faults, gaps, the console -/

/-- `raise Fault(kind, addr)` (R18, R181), for an instruction at `pcOf`: `halt` and `fault` are written and nothing
else. Applied to the state the fetch left, it drops every write of the instruction. -/
def State.raise (s : State) (kind : FaultKind) (pcOf addr : Word) : State :=
  { s with halt := .fault, fault := some { kind := kind, pcOf := pcOf, addr := addr } }

/-- A decode gap (R80): `gap_seen <- true`, and `halt <- GAP` under `HALT_ON_GAP`. -/
def State.decodeGap (s : State) : State :=
  { s with gapSeen := true, halt := if s.params.haltOnGap then .gap else s.halt }

/-- `OUT <- OUT ++ bytes` (R33). -/
def State.print (s : State) (bytes : List Byte) : State := { s with out := s.out ++ bytes }

/-- `halt <- EXIT` (R173). -/
def State.exit (s : State) : State := { s with halt := .exit }

/-- `SYS4_SPACE(state)` (R12, R172). -/
def State.sys4Space (s : State) : Bool :=
  match s.params.sys4Space with
  | .constant b => b
  | .unstated => Config.sys4SpaceOfState s

/-! ## Fetch -/

/-- The fetch check (R91): `pc[1:0] = 00` and `InRange(pc)`. -/
def State.fetchable (s : State) : Bool := decide (s.pc.toNat % 4 = 0) && s.inRange s.pc

/-- `started <- true` (R91). -/
def State.start (s : State) : State := { s with started := true }

/-- `w <- MemRead(pc, 4)` (R92). -/
def State.fetchWord (s : State) : Word := s.memRead s.pc

/-- `ppc <- pc` and `pc <- pc + 4`, modulo `2^32` (R27, R92). -/
def State.advance (s : State) : State := { s with ppc := s.pc, pc := s.pc + 4#32 }

/-- The state in which an instruction of this step executes (R91, R92). -/
def State.fetched (s : State) : State := s.start.advance

/-- The fetch fault (R91, R182): the record names the `pc` that could not be fetched, twice. `started` is already
true (DEDUCED, log 14). -/
def State.fetchFault (s : State) : State := s.start.raise .fetch s.pc s.pc

/-! ## Reset -/

/-- `reset()` (R200): the launch state again, with the memory and the parameters as they are. It is the block's
only way out of a halt (R90, R187): there is no return from a fault. -/
def State.doReset (s : State) : State := State.launch s.params s.mem

end Sys2Proof.Machine
end

