-- ==== Sys2Proof/Machine/Operands.lean ====
section
/-! DEFINITION. Operand forms: effective addresses, narrowed values, shift amounts and jump targets
(42_load_store.md R115 to R124; 43_control_transfer.md R130, R137, R138; 44_integer_alu.md R156). -/

namespace Sys2Proof.Machine

/-- `a = x[rs1] + imm`, wrapping (R42, R115): the one addressing mode. -/
def State.effectiveAddress (s : State) (rs1 : Reg) (imm : Word) : Word := s.getReg rs1 + imm

/-- What SB and SH write for a register value (R123, R124): all of it, or its low `n` bits zero-extended. -/
def State.narrowed (s : State) (n : Nat) (v : Word) : Word :=
  match s.params.narrowStore with
  | .fullWord => v
  | .maskedWord => zext n v

/-- The shift amount of a register shift: `x[rs2][4:0]` (R156). -/
def shiftAmount (v : Word) : Nat := (v.extractLsb' 0 5).toNat

/-- A PC-relative target: `ppc + imm`, wrapping (R130, R137). -/
def State.relativeTarget (s : State) (imm : Word) : Word := s.ppc + imm

/-- The JALR target: `(x[rs1] + immI) & 0xFFFFFFFE` (R138). -/
def State.jalrTarget (s : State) (rs1 : Reg) (imm : Word) : Word := (s.getReg rs1 + imm) &&& 0xFFFFFFFE#32

end Sys2Proof.Machine
end

