-- ==== Sys2Proof/Machine/ControlTransfer.lean ====
section
/-! DEFINITION. Branches and jumps (43_control_transfer.md). When one executes, `ppc` is its own address and `pc` the
address after it; it never faults, whatever its target (R139). -/

namespace Sys2Proof.Machine

/-- The branch rule (R130). -/
def branchIf (taken : Bool) (imm : Word) (s : State) : State :=
  if taken then s.setPc (s.relativeTarget imm) else s

/-- R131. -/
def execBeq (rs1 rs2 : Reg) (imm : Word) (s : State) : Result :=
  .next (branchIf (decide (s.getReg rs1 = s.getReg rs2)) imm s)

/-- R132. -/
def execBne (rs1 rs2 : Reg) (imm : Word) (s : State) : Result :=
  .next (branchIf (decide (s.getReg rs1 ≠ s.getReg rs2)) imm s)

/-- R133: signed. -/
def execBlt (rs1 rs2 : Reg) (imm : Word) (s : State) : Result :=
  .next (branchIf (lessSigned (s.getReg rs1) (s.getReg rs2)) imm s)

/-- R134: signed; taken exactly when BLT is not. -/
def execBge (rs1 rs2 : Reg) (imm : Word) (s : State) : Result :=
  .next (branchIf (!lessSigned (s.getReg rs1) (s.getReg rs2)) imm s)

/-- R135: unsigned. -/
def execBltu (rs1 rs2 : Reg) (imm : Word) (s : State) : Result :=
  .next (branchIf (lessUnsigned (s.getReg rs1) (s.getReg rs2)) imm s)

/-- R136: unsigned. -/
def execBgeu (rs1 rs2 : Reg) (imm : Word) (s : State) : Result :=
  .next (branchIf (!lessUnsigned (s.getReg rs1) (s.getReg rs2)) imm s)

/-- R137: `link <- pc; pc <- ppc + immJ; x[rd] <- link`. -/
def execJal (rd : Reg) (imm : Word) (s : State) : Result :=
  .next ((s.setPc (s.relativeTarget imm)).setReg rd s.pc)

/-- R138: the target from the old `x[rs1]`, then the link (D17). -/
def execJalr (rd rs1 : Reg) (imm : Word) (s : State) : Result :=
  .next ((s.setPc (s.jalrTarget rs1 imm)).setReg rd s.pc)

end Sys2Proof.Machine
end

