-- ==== Sys2Proof/Machine/IntegerAlu.lean ====
section
/-! DEFINITION. Integer arithmetic, logic, shifts and compares (44_integer_alu.md): every one writes only `x[rd]`
and cannot fault; sums wrap modulo `2^32` (R145). -/

namespace Sys2Proof.Machine

/-- A register-register instruction: `x[rd] <- f x[rs1] x[rs2]`. -/
def aluRegReg (f : Word → Word → Word) (rd rs1 rs2 : Reg) (s : State) : State :=
  s.setReg rd (f (s.getReg rs1) (s.getReg rs2))

/-- A register-immediate instruction: `x[rd] <- f x[rs1]`, the immediate being in `f`. -/
def aluRegImm (f : Word → Word) (rd rs1 : Reg) (s : State) : State := s.setReg rd (f (s.getReg rs1))

/-- R146. -/
def execAdd (rd rs1 rs2 : Reg) (s : State) : Result := .next (aluRegReg (fun x y => x + y) rd rs1 rs2 s)

/-- R147. -/
def execSub (rd rs1 rs2 : Reg) (s : State) : Result := .next (aluRegReg (fun x y => x - y) rd rs1 rs2 s)

/-- R148, R156. -/
def execSll (rd rs1 rs2 : Reg) (s : State) : Result :=
  .next (aluRegReg (fun x y => x <<< shiftAmount y) rd rs1 rs2 s)

/-- R149. -/
def execSlt (rd rs1 rs2 : Reg) (s : State) : Result :=
  .next (aluRegReg (fun x y => boolWord (lessSigned x y)) rd rs1 rs2 s)

/-- R150. -/
def execSltu (rd rs1 rs2 : Reg) (s : State) : Result :=
  .next (aluRegReg (fun x y => boolWord (lessUnsigned x y)) rd rs1 rs2 s)

/-- R151. -/
def execXor (rd rs1 rs2 : Reg) (s : State) : Result := .next (aluRegReg (fun x y => x ^^^ y) rd rs1 rs2 s)

/-- R152, R156: zeros enter from the left. -/
def execSrl (rd rs1 rs2 : Reg) (s : State) : Result :=
  .next (aluRegReg (fun x y => x >>> shiftAmount y) rd rs1 rs2 s)

/-- R153, R156: copies of bit 31 enter from the left. -/
def execSra (rd rs1 rs2 : Reg) (s : State) : Result :=
  .next (aluRegReg (fun x y => x.sshiftRight (shiftAmount y)) rd rs1 rs2 s)

/-- R154. -/
def execOr (rd rs1 rs2 : Reg) (s : State) : Result := .next (aluRegReg (fun x y => x ||| y) rd rs1 rs2 s)

/-- R155. -/
def execAnd (rd rs1 rs2 : Reg) (s : State) : Result := .next (aluRegReg (fun x y => x &&& y) rd rs1 rs2 s)

/-- R157. -/
def execAddi (rd rs1 : Reg) (imm : Word) (s : State) : Result := .next (aluRegImm (fun x => x + imm) rd rs1 s)

/-- R158. -/
def execOri (rd rs1 : Reg) (imm : Word) (s : State) : Result := .next (aluRegImm (fun x => x ||| imm) rd rs1 s)

/-- R159. -/
def execSlti (rd rs1 : Reg) (imm : Word) (s : State) : Result :=
  .next (aluRegImm (fun x => boolWord (lessSigned x imm)) rd rs1 s)

/-- R160. -/
def execXori (rd rs1 : Reg) (imm : Word) (s : State) : Result := .next (aluRegImm (fun x => x ^^^ imm) rd rs1 s)

/-- R161. -/
def execAndi (rd rs1 : Reg) (imm : Word) (s : State) : Result := .next (aluRegImm (fun x => x &&& imm) rd rs1 s)

/-- R162: the extended immediate, compared as unsigned. -/
def execSltiu (rd rs1 : Reg) (imm : Word) (s : State) : Result :=
  .next (aluRegImm (fun x => boolWord (lessUnsigned x imm)) rd rs1 s)

/-- R163. -/
def execSlli (rd rs1 : Reg) (shamt : BitVec 5) (s : State) : Result :=
  .next (aluRegImm (fun x => x <<< shamt.toNat) rd rs1 s)

/-- R164. -/
def execSrli (rd rs1 : Reg) (shamt : BitVec 5) (s : State) : Result :=
  .next (aluRegImm (fun x => x >>> shamt.toNat) rd rs1 s)

/-- R165. -/
def execSrai (rd rs1 : Reg) (shamt : BitVec 5) (s : State) : Result :=
  .next (aluRegImm (fun x => x.sshiftRight shamt.toNat) rd rs1 s)

end Sys2Proof.Machine
end

