-- ==== Sys2Proof/Machine/LoadStore.lean ====
section
/-! DEFINITION. Loads and stores (42_load_store.md): whole slots, the low two address bits ignored (R46, R50). -/

namespace Sys2Proof.Machine

/-- The load rule (R115): the range check, then the slot, narrowed by `extend`, into `x[rd]`. -/
def loadWith (extend : Word → Word) (rd rs1 : Reg) (imm : Word) (s : State) : State :=
  let a := s.effectiveAddress rs1 imm
  if s.inRange a then s.setReg rd (extend (s.memRead a)) else s.raise .load s.ppc a

/-- The store rule (R115, R122): the range check, then `v` replaces the slot. -/
def storeValue (rs1 : Reg) (imm : Word) (v : Word) (s : State) : State :=
  let a := s.effectiveAddress rs1 imm
  if s.inRange a then s.memWrite a v else s.raise .store s.ppc a

/-- R116: `x[rd] <- sext_8(v[7:0])`. -/
def execLb (rd rs1 : Reg) (imm : Word) (s : State) : Result := .next (loadWith (sext 8) rd rs1 imm s)

/-- R117: `x[rd] <- sext_16(v[15:0])`. -/
def execLh (rd rs1 : Reg) (imm : Word) (s : State) : Result := .next (loadWith (sext 16) rd rs1 imm s)

/-- R118: `x[rd] <- MemRead(a, 4)`. -/
def execLw (rd rs1 : Reg) (imm : Word) (s : State) : Result := .next (loadWith id rd rs1 imm s)

/-- R119: `x[rd] <- zext_8(v[7:0])`. -/
def execLbu (rd rs1 : Reg) (imm : Word) (s : State) : Result := .next (loadWith (zext 8) rd rs1 imm s)

/-- R120: `x[rd] <- zext_16(v[15:0])`. -/
def execLhu (rd rs1 : Reg) (imm : Word) (s : State) : Result := .next (loadWith (zext 16) rd rs1 imm s)

/-- R123: the whole register, or its low byte zero-extended, as `NARROW_STORE` says. -/
def execSb (rs1 rs2 : Reg) (imm : Word) (s : State) : Result :=
  .next (storeValue rs1 imm (s.narrowed 8 (s.getReg rs2)) s)

/-- R124: the whole register, or its low halfword zero-extended, as `NARROW_STORE` says. -/
def execSh (rs1 rs2 : Reg) (imm : Word) (s : State) : Result :=
  .next (storeValue rs1 imm (s.narrowed 16 (s.getReg rs2)) s)

/-- R125: `MemWrite(a, 4, x[rs2])`. -/
def execSw (rs1 rs2 : Reg) (imm : Word) (s : State) : Result :=
  .next (storeValue rs1 imm (s.getReg rs2) s)

end Sys2Proof.Machine
end

