-- ==== Sys2Proof/Machine/System.lean ====
section
/-! DEFINITION. ECALL and the syscall handler (45_system.md). No syscall writes a register or the `pc` (R170). -/

namespace Sys2Proof.Machine

/-- The decimal digits of `n` in ASCII, most significant first, at most `fuel` of them. -/
def decimalDigits : Nat → Nat → List Byte
  | 0, _ => []
  | fuel + 1, n =>
    if n < 10 then [BitVec.ofNat 8 (0x30 + n)]
    else decimalDigits fuel (n / 10) ++ [BitVec.ofNat 8 (0x30 + n % 10)]

/-- The text of syscall 1 (R171): `-` for a negative `s(v)`, then the digits of `|s(v)|`, which has at most ten. -/
def decimalText (v : Word) : List Byte :=
  if v.toInt < 0 then 0x2D#8 :: decimalDigits 10 v.toInt.natAbs else decimalDigits 10 v.toInt.natAbs

/-- The string walk of syscall 4 (R172) from `p`, with `left` bytes of backed memory from `p` on: the bytes before
the first NUL, or the first address that is out of range. -/
def readString (s : State) : Nat → Word → Except Word (List Byte)
  | 0, p => .error p
  | left + 1, p =>
    let b := s.byteView p
    if b = 0x00#8 then .ok []
    else
      match readString s left (p + 1#32) with
      | .ok bytes => .ok (b :: bytes)
      | .error q => .error q

/-- `print_int(v)` (R171). -/
def printInt (v : Word) (s : State) : State := s.print (decimalText v)

/-- `print_str(a)` (R172): one space where `SYS4_SPACE` says so, else the whole string, or a fault and nothing. -/
def printStr (a : Word) (s : State) : State :=
  if s.sys4Space then s.print [0x20#8]
  else
    match readString s (s.params.memBytes - a.toNat) a with
    | .ok bytes => s.print bytes
    | .error p => s.raise .syscallRead s.ppc p

/-- R170 to R174: dispatch on all 32 bits of `x[SYSNUM_REG]`; any other number does nothing. -/
def execEcall (s : State) : Result :=
  let n := s.getReg s.params.sysNumReg
  let v := s.getReg s.params.sysArgReg
  if n = Config.sysPrintInt then .next (printInt v s)
  else if n = Config.sysPrintStr then .next (printStr v s)
  else if n = Config.sysExit then .next s.exit
  else .next s

end Sys2Proof.Machine
end

