-- ==== Sys2Proof/Machine/UpperImmediate.lean ====
section
/-! DEFINITION. LUI and AUIPC (41_upper_immediate.md). -/

namespace Sys2Proof.Machine

/-- R110: `x[rd] <- immU`. -/
def execLui (rd : Reg) (imm : Word) (s : State) : Result := .next (s.setReg rd imm)

/-- R111: `x[rd] <- ppc + immU`. -/
def execAuipc (rd : Reg) (imm : Word) (s : State) : Result := .next (s.setReg rd (s.relativeTarget imm))

end Sys2Proof.Machine
end

