-- ==== Sys2Proof/Machine/Step.lean ====
section
/-! DEFINITION. One step (40_step_driver.md R90 to R97). -/

namespace Sys2Proof.Machine

/-- R97: a halted block does nothing (R90); else the fetch check (R91), the fetch (R92), the decode (R93) and the
instruction's rule or the decode gap (R94). -/
def step (s : State) : Host.Outcome State Fault Refusal :=
  if s.halt = .none then
    if s.fetchable then
      match decodeWord s.fetchWord with
      | .ok i => exec i s.fetched
      | .error _ => .next s.fetched.decodeGap
    else .next s.fetchFault
  else .next s

/-- `s` with the instruction of table bits `w` (`nbits` of them, zeros above) in the slot the next step fetches. It
stands for the loader's `load` of that slot (R100, R202); where no slot is at `pc`, nothing is stored (log 9). -/
def State.withFetchWord (s : State) (nbits w : Nat) : State :=
  if s.inRange s.pc then s.memWrite s.pc (BitVec.ofNat 32 (w % 2 ^ nbits)) else s

end Sys2Proof.Machine
end

