-- ==== Sys2Proof/Machine/Driver.lean ====
section
/-! DEFINITION. The block's interface beside `step` (40_step_driver.md R95 to R106, 70_reset_and_hazards.md R202):
step outcomes, `run`, the loader and inspection. Reset is `State.doReset` (Ops). -/

namespace Sys2Proof.Machine

/-! ## Step outcomes and `run` -/

/-- What a step returns (R95). The fault record is the state's `fault` field. -/
inductive StepOutcome where
  | ok
  | gap (w : Word)
  | exit
  | fault (record : Option FaultRecord)
  | halted
  deriving DecidableEq, Repr

/-- What `run` returns (R96). -/
inductive RunOutcome where
  | exit
  | fault (record : Option FaultRecord)
  | gap
  | bound
  | aborted
  deriving DecidableEq, Repr

/-- The state a step leaves. A step always answers a next state; the other two arms are never reached (log 7). -/
def stepState (s : State) : State :=
  match step s with
  | .next t => t
  | .fault _ => s
  | .refused _ => s

/-- The outcome of the step taken from `s` (R95), a function of `s` alone (R207, log 8). A step that executes an
instruction never leaves `halt = GAP`. -/
def stepOutcome (s : State) : StepOutcome :=
  if s.halt = .none then
    match s.fetchable, decodeWord s.fetchWord with
    | true, .error _ => .gap s.fetchWord
    | _, _ =>
      match (stepState s).halt with
      | .none => .ok
      | .exit => .exit
      | .fault => .fault (stepState s).fault
      | .gap => .ok
  else .halted

/-- How `run` stops before its next step, if it does (R96): halted, then the bound, then the host's abort. -/
def runStops (abort : Bool) (s : State) : Option RunOutcome :=
  match s.halt with
  | .exit => some .exit
  | .fault => some (.fault s.fault)
  | .gap => some .gap
  | .none =>
    if s.params.textBound.toNat ≤ s.pc.toNat then some .bound
    else if abort then some .aborted
    else none

/-- `run` (R96) for a host that asks to abort once `budget` steps have been taken (R99; DESIGN CHOICE, safe,
log 13). -/
def run : Nat → State → State × RunOutcome
  | 0, s => (s, (runStops true s).getD .aborted)
  | budget + 1, s =>
    match runStops false s with
    | some o => (s, o)
    | none => run budget (stepState s)

/-- The states from which `run` takes a step, in order. -/
def runSteps : Nat → State → List State
  | 0, _ => []
  | budget + 1, s =>
    match runStops false s with
    | some _ => []
    | none => s :: runSteps budget (stepState s)

/-! ## The loader interface (R100, R202) -/

/-- What `load` answers: R100 accepts or refuses it. -/
inductive LoadOutcome where
  | accepted
  | refused
  deriving DecidableEq, Repr

/-- `load(j, v)` (R100): accepted only while `started = false`; otherwise nothing changes. A slot index the memory
does not have is refused too (DESIGN CHOICE, safe, log 12). -/
def State.load (s : State) (j : Nat) (v : Word) : State × LoadOutcome :=
  if s.started = false ∧ j < s.params.memWords.val then ({ s with mem := s.mem.writeSlot j v }, .accepted)
  else (s, .refused)

/-- Loads consecutive slots from slot `j` upward. -/
def State.loadWords (s : State) (j : Nat) : List Word → State
  | [] => s
  | v :: vs => State.loadWords (s.load j v).1 (j + 1) vs

/-- Image bytes become words, four at a time, little-endian (R48, R202). An image is a whole number of words
(DESIGN CHOICE, safe, log 19). -/
def imageWords : List Byte → List Word
  | b0 :: b1 :: b2 :: b3 :: rest => wordOfBytes b0 b1 b2 b3 :: imageWords rest
  | _ => []

/-- Phase 2 of a launch (R202): the text image from `TEXT_BASE` upward, the data image from `DATA_BASE` upward. The
text comes first, so where a text image runs into the data the data image wins; the spec leaves that to the order of the
loads (93_implementation_defined.md U18). DESIGN CHOICE, safe (log 23): `load` allows every order. -/
def State.loadImages (s : State) (text data : List Byte) : State :=
  (s.loadWords (slotIndex s.params.textBase) (imageWords text)).loadWords (slotIndex s.params.dataBase)
    (imageWords data)

/-! ## Inspection (R102, R104): values, never a state -/

/-- `read_reg(i)`. -/
def State.readReg (s : State) (i : Reg) : Word := s.getReg i

/-- `read_pc()`. -/
def State.readPc (s : State) : Word := s.pc

/-- `read_mem(j)`, for `j < MEM_WORDS` (none above: log 20). -/
def State.readMem (s : State) (j : Nat) : Option Word :=
  if j < s.params.memWords.val then some (s.mem.readSlot j) else none

/-- `read_status()`. -/
def State.readStatus (s : State) : Halt × Option FaultRecord × Bool := (s.halt, s.fault, s.gapSeen)

/-- The console bytes the host reads (R103). -/
def State.readConsole (s : State) : List Byte := s.out

/-! ## The address map (R53) -/

/-- The three ranges of the address space. -/
inductive Region where
  | text
  | data
  | unbacked
  deriving DecidableEq, Repr

/-- Which range an address lies in (R53). Only the backed test has an effect on an access. -/
def State.regionOf (s : State) (a : Word) : Region :=
  if s.inRange a then (if a.toNat < s.params.dataBase.toNat then .text else .data) else .unbacked

end Sys2Proof.Machine
end

