-- ==== Sys2Proof/WellFormed.lean ====
section
/-! DEFINITION. Which instructions an encoding admits: the ranges of the five immediate families (30_encoding.md
R63 to R68). Register numbers and shift amounts are in range by their types (R70, R77). -/

namespace Sys2Proof

/-- `immI` and `immS` lie in [−2048, 2047] (R63, R64). -/
def fits12 (v : Word) : Bool := decide (-2048 ≤ v.toInt) && decide (v.toInt ≤ 2047)

/-- `immB` is even and lies in [−4096, 4094] (R65). -/
def fitsB (v : Word) : Bool :=
  decide (-4096 ≤ v.toInt) && decide (v.toInt ≤ 4094) && decide (v.toInt % 2 = 0)

/-- The low 12 bits of `immU` are 0 (R66). -/
def fitsU (v : Word) : Bool := decide (v.toNat % 4096 = 0)

/-- `immJ` is even and lies in [−1048576, 1048574] (R67). -/
def fitsJ (v : Word) : Bool :=
  decide (-1048576 ≤ v.toInt) && decide (v.toInt ≤ 1048574) && decide (v.toInt % 2 = 0)

/-- An instruction that some word encodes: its immediate lies in its family's range (R68). -/
def Instr.wf : Instr → Bool
  | .lui _ imm => fitsU imm
  | .auipc _ imm => fitsU imm
  | .lb _ _ imm => fits12 imm
  | .lh _ _ imm => fits12 imm
  | .lw _ _ imm => fits12 imm
  | .lbu _ _ imm => fits12 imm
  | .lhu _ _ imm => fits12 imm
  | .sb _ _ imm => fits12 imm
  | .sh _ _ imm => fits12 imm
  | .sw _ _ imm => fits12 imm
  | .beq _ _ imm => fitsB imm
  | .bne _ _ imm => fitsB imm
  | .blt _ _ imm => fitsB imm
  | .bge _ _ imm => fitsB imm
  | .bltu _ _ imm => fitsB imm
  | .bgeu _ _ imm => fitsB imm
  | .jal _ imm => fitsJ imm
  | .jalr _ _ imm => fits12 imm
  | .add _ _ _ => true
  | .sub _ _ _ => true
  | .sll _ _ _ => true
  | .slt _ _ _ => true
  | .sltu _ _ _ => true
  | .xor _ _ _ => true
  | .srl _ _ _ => true
  | .sra _ _ _ => true
  | .or _ _ _ => true
  | .and _ _ _ => true
  | .addi _ _ imm => fits12 imm
  | .ori _ _ imm => fits12 imm
  | .slti _ _ imm => fits12 imm
  | .xori _ _ imm => fits12 imm
  | .andi _ _ imm => fits12 imm
  | .sltiu _ _ imm => fits12 imm
  | .slli _ _ _ => true
  | .srli _ _ _ => true
  | .srai _ _ _ => true
  | .ecall => true

end Sys2Proof
end

