-- ==== Sys2Proof/Safety.lean ====
section
/-! DEFINITION. The terms claims use: what a frame leaves alone, the state invariant, and what a clean run is. -/

namespace Sys2Proof.Machine

/-! ## Frames -/

/-- Every register but `rd` reads as before. -/
def SameRegsBut (rd : Reg) (s t : State) : Prop := ∀ r : Reg, r ≠ rd → t.getReg r = s.getReg r

/-- Every register reads as before. -/
def SameRegs (s t : State) : Prop := ∀ r : Reg, t.getReg r = s.getReg r

/-- Every byte of memory reads as before. -/
def SameMemory (s t : State) : Prop := ∀ a : Nat, t.mem.readByte a = s.mem.readByte a

/-- Every byte of memory outside slot `j` reads as before. -/
def SameMemoryBut (j : Nat) (s t : State) : Prop :=
  ∀ a : Nat, a < 4 * j ∨ 4 * j + 3 < a → t.mem.readByte a = s.mem.readByte a

/-- `halt`, `fault`, `gap_seen` and `started` are as before. -/
def SameStatus (s t : State) : Prop :=
  t.halt = s.halt ∧ t.fault = s.fault ∧ t.gapSeen = s.gapSeen ∧ t.started = s.started

/-- Nothing but registers, `pc` and memory may differ. -/
def SameRest (s t : State) : Prop := SameStatus s t ∧ t.ppc = s.ppc ∧ t.out = s.out ∧ t.params = s.params

/-- `t` is `s` with `v` written to `x[rd]`: nothing at all where `rd = 0` (R16, R21). -/
def WritesOnly (s : State) (rd : Reg) (v : Word) (t : State) : Prop :=
  (∀ r : Reg, t.getReg r = if r = rd ∧ r ≠ 0 then v else s.getReg r) ∧
  t.pc = s.pc ∧ SameMemory s t ∧ SameRest s t

/-- `t` is `s` after a branch whose relation is `holds` (R130): `pc` alone may change. -/
def BranchesIf (holds : Prop) (imm : Word) (s t : State) : Prop :=
  (holds → t.pc.toNat = (s.ppc.toNat + imm.toNat) % 2 ^ 32) ∧ (¬ holds → t.pc = s.pc) ∧
  SameRegs s t ∧ SameMemory s t ∧ SameRest s t

/-- `t` is `s` after the instruction at `ppc` raised a fault (R181): `halt` and `fault` alone have changed. -/
def FaultsAt (s : State) (kind : FaultKind) (addr : Word) (t : State) : Prop :=
  t.halt = .fault ∧ t.fault = some { kind := kind, pcOf := s.ppc, addr := addr } ∧
  SameRegs s t ∧ SameMemory s t ∧ t.pc = s.pc ∧ t.ppc = s.ppc ∧ t.out = s.out ∧
  t.gapSeen = s.gapSeen ∧ t.started = s.started ∧ t.params = s.params

/-- The words that decode to the instruction `o` are those its row's mask and match select (R75). -/
def RowIs (o : Op) (matchBits maskBits : Word) : Prop :=
  ∀ w : Word, (∃ i, decodeWord w = .ok i ∧ i.op = o) ↔ w &&& maskBits = matchBits

/-- The register an instruction writes (R23): the stores, the branches and ECALL write none. -/
def destReg : Instr → Option Reg
  | .lui rd _ => some rd
  | .auipc rd _ => some rd
  | .lb rd _ _ => some rd
  | .lh rd _ _ => some rd
  | .lw rd _ _ => some rd
  | .lbu rd _ _ => some rd
  | .lhu rd _ _ => some rd
  | .sb _ _ _ => none
  | .sh _ _ _ => none
  | .sw _ _ _ => none
  | .beq _ _ _ => none
  | .bne _ _ _ => none
  | .blt _ _ _ => none
  | .bge _ _ _ => none
  | .bltu _ _ _ => none
  | .bgeu _ _ _ => none
  | .jal rd _ => some rd
  | .jalr rd _ _ => some rd
  | .add rd _ _ => some rd
  | .sub rd _ _ => some rd
  | .sll rd _ _ => some rd
  | .slt rd _ _ => some rd
  | .sltu rd _ _ => some rd
  | .xor rd _ _ => some rd
  | .srl rd _ _ => some rd
  | .sra rd _ _ => some rd
  | .or rd _ _ => some rd
  | .and rd _ _ => some rd
  | .addi rd _ _ => some rd
  | .ori rd _ _ => some rd
  | .slti rd _ _ => some rd
  | .xori rd _ _ => some rd
  | .andi rd _ _ => some rd
  | .sltiu rd _ _ => some rd
  | .slli rd _ _ => some rd
  | .srli rd _ _ => some rd
  | .srai rd _ _ => some rd
  | .ecall => none

/-- The branches and jumps (43_control_transfer.md). -/
def controlOps : List Op := [.beq, .bne, .blt, .bge, .bltu, .bgeu, .jal, .jalr]

/-- The loads (42_load_store.md). -/
def loadOps : List Op := [.lb, .lh, .lw, .lbu, .lhu]

/-- The stores (42_load_store.md). -/
def storeOps : List Op := [.sb, .sh, .sw]

/-- The address a store stores to, computed as its meaning computes it (R115); the other instructions store nothing. -/
def storeAddress (s : State) : Instr → Option Word
  | .sb rs1 _ imm | .sh rs1 _ imm | .sw rs1 _ imm => some (s.effectiveAddress rs1 imm)
  | .lui _ _ | .auipc _ _ | .lb _ _ _ | .lh _ _ _ | .lw _ _ _ | .lbu _ _ _ | .lhu _ _ _ => none
  | .beq _ _ _ | .bne _ _ _ | .blt _ _ _ | .bge _ _ _ | .bltu _ _ _ | .bgeu _ _ _ | .jal _ _ | .jalr _ _ _ => none
  | .add _ _ _ | .sub _ _ _ | .sll _ _ _ | .slt _ _ _ | .sltu _ _ _ | .xor _ _ _ | .srl _ _ _ | .sra _ _ _ => none
  | .or _ _ _ | .and _ _ _ | .addi _ _ _ | .ori _ _ _ | .slti _ _ _ | .xori _ _ _ | .andi _ _ _ => none
  | .sltiu _ _ _ | .slli _ _ _ | .srli _ _ _ | .srai _ _ _ | .ecall => none

/-! ## The invariant -/

/-- A fault record tells the truth about the state that holds it (R30, R181, R182): a FETCH record names the `pc`
that cannot be fetched, any other the instruction at `ppc` and an address outside memory. -/
def FaultRecord.truthful (f : FaultRecord) (s : State) : Prop :=
  (f.kind = .fetch → f.pcOf = s.pc ∧ f.addr = s.pc ∧ s.fetchable = false) ∧
  (f.kind ≠ .fetch → f.pcOf = s.ppc ∧ s.params.memBytes ≤ f.addr.toNat)

/-- The invariant every step keeps. -/
structure State.Inv (s : State) : Prop where
  /-- The memory is in canonical form. -/
  memWf : s.mem.wf
  /-- Every listed byte is backed (R40). -/
  memBacked : s.mem.below s.params.memBytes
  /-- The slot that stands for `x0` holds 0 (R21). -/
  x0Zero : s.regs[0] = 0#32
  /-- `pc` is even: every target has bit 0 clear (R139). -/
  pcEven : s.pc.toNat % 2 = 0
  /-- Every instruction that executes was fetched from a multiple of 4 (R26). -/
  ppcAligned : s.ppc.toNat % 4 = 0
  /-- A fault is recorded exactly when it halted the block (R30). -/
  faultRecorded : s.halt = .fault ↔ s.fault.isSome = true
  /-- The record tells the truth. -/
  faultTruthful : ∀ f, s.fault = some f → f.truthful s
  /-- A gap halts only under `HALT_ON_GAP`, and is marked (R80). -/
  gapHalt : s.halt = .gap → s.params.haltOnGap = true ∧ s.gapSeen = true
  /-- Before the first step nothing has happened (R32). -/
  fresh : s.started = false → s.halt = .none ∧ s.gapSeen = false ∧ s.out = []

/-! ## Runs -/

/-- A clean run (R106): the program ended itself, and every word it executed was an instruction. -/
def CleanRun (budget : Nat) (s : State) : Prop := (run budget s).2 = .exit ∧ (run budget s).1.gapSeen = false

/-- The value of a string of ASCII decimal digits, most significant first. -/
def decimalValue (digits : List Byte) : Nat := digits.foldl (fun n d => 10 * n + (d.toNat - 0x30)) 0

end Sys2Proof.Machine
end

