-- ==== Sys2Proof/Certificates/Slice0/Obligations.lean ====
section
/-! DEFINITION. The statements for the provers. Each docstring names the rules of spec/ it comes from. -/

open Sys2Proof Sys2Proof.Machine

/-! ## Encoding -/

/-- Decoding the word of a well-formed instruction gives it back, with every operand at every value the encoding
admits (R62, R68, R75). -/
def Obligations.DecodeOfEncodeIsTheInstruction : Prop :=
  ∀ i : Instr, i.wf = true → decodeWord (encode i) = .ok i

/-- Every word that decodes has one reading: the instruction is well-formed, and its own word is that word. -/
def Obligations.EncodeOfDecodeIsTheWord : Prop :=
  ∀ (w : Word) (i : Instr), decodeWord w = .ok i → i.wf = true ∧ encode i = w

/-- R75: the dispatch tree agrees with the opcode table, and no two rows match one word. -/
def Obligations.DecoderAgreesWithOpcodeTable : Prop :=
  (∀ (w : Word) (o : Op), (∃ i, decodeWord w = .ok i ∧ i.op = o) ↔ o.matches w = true) ∧
  (∀ (w : Word) (o o' : Op), o.matches w = true → o'.matches w = true → o = o')

/-- R63 to R67: each bit of each immediate, and the range of each immediate. -/
def Obligations.ImmediateBitsAndRanges : Prop :=
  ∀ w : Word,
    (∀ k < 32, (immI w).getLsbD k = w.getLsbD (if k < 11 then k + 20 else 31)) ∧
    (∀ k < 32, (immS w).getLsbD k = w.getLsbD (if k < 5 then k + 7 else if k < 11 then k + 20 else 31)) ∧
    (∀ k < 32, (immB w).getLsbD k =
      if k = 0 then false
      else w.getLsbD (if k < 5 then k + 7 else if k < 11 then k + 20 else if k = 11 then 7 else 31)) ∧
    (∀ k < 32, (immU w).getLsbD k = if k < 12 then false else w.getLsbD k) ∧
    (∀ k < 32, (immJ w).getLsbD k =
      if k = 0 then false
      else w.getLsbD (if k < 11 then k + 20 else if k = 11 then 20 else if k < 20 then k else 31)) ∧
    fits12 (immI w) = true ∧ fits12 (immS w) = true ∧ fitsB (immB w) = true ∧ fitsU (immU w) = true ∧
    fitsJ (immJ w) = true

/-- R68: putting a value's bits in a family's fields and decoding gives back the value, for each of the five
families over its whole range; and a 12-bit value is extended as two's complement. -/
def Obligations.ImmediateRoundTrip : Prop :=
  (∀ (v : Word) (r1 r2 : Reg) (f : BitVec 3) (o : BitVec 7),
    (fits12 v = true → immI (packI v r1 f r2 o) = v ∧ immS (packS v r1 r2 f o) = v) ∧
    (fitsB v = true → immB (packB v r1 r2 f o) = v) ∧
    (fitsU v = true → immU (packU v r1 o) = v) ∧
    (fitsJ v = true → immJ (packJ v r1 o) = v)) ∧
  (∀ v : BitVec 12, (sext 12 (v.setWidth 32)).toInt = v.toInt ∧ -2048 ≤ v.toInt ∧ v.toInt ≤ 2047)

/-- Words written out from the spec's encodings decode to the instructions they stand for (the examples of R110,
R116, R125, R131, R137, R138, R146, R157, R165, R170), and words the spec calls gaps do not decode (R78). -/
def Obligations.SpecExampleWordsDecode : Prop :=
  decodeWord 0x123452B7#32 = .ok (.lui 5 0x12345000#32) ∧
  decodeWord 0x00140503#32 = .ok (.lb 10 8 1#32) ∧
  decodeWord 0x00942023#32 = .ok (.sw 8 9 0#32) ∧
  decodeWord 0xFE628CE3#32 = .ok (.beq 5 6 (-8#32)) ∧
  decodeWord 0x008000EF#32 = .ok (.jal 1 8#32) ∧
  decodeWord 0x000280E7#32 = .ok (.jalr 1 5 0#32) ∧
  decodeWord 0x00628533#32 = .ok (.add 10 5 6) ∧
  decodeWord 0x00A00293#32 = .ok (.addi 5 0 10#32) ∧
  decodeWord 0x4042D513#32 = .ok (.srai 10 5 4#5) ∧
  decodeWord 0x00000073#32 = .ok .ecall ∧
  decodeWord 0x00000000#32 = .error .opcode ∧
  decodeWord 0xFFFFFFFF#32 = .error .opcode ∧
  decodeWord 0x0FF0000F#32 = .error .opcode ∧
  decodeWord 0x00100073#32 = .error .system ∧
  decodeWord 0x02000033#32 = .error .funct7

/-! ## Registers and reset -/

/-- R21 and R16: `x0` reads 0 and a write to it is discarded; any other register reads as it was last written, and a
write reaches no other register. -/
def Obligations.RegisterReadAfterWrite : Prop :=
  ∀ (s : State) (i r : Reg) (v : Word),
    s.getReg 0 = 0#32 ∧ s.setReg 0 v = s ∧
    (r ≠ 0 → (s.setReg r v).getReg r = v) ∧ (r ≠ i → (s.setReg i v).getReg r = s.getReg r) ∧
    State.reset.getReg 0 = 0#32

/-- R200: every write of `reset()`, that it makes no other, and that at power-on memory holds `MEM_INIT`:
the image given to the launch, or at `State.reset` the free value `Config.memInit` (log 2). -/
def Obligations.ResetWritesLaunchState : Prop :=
  ∀ s : State,
    (∀ r : Reg, s.doReset.getReg r =
      if r = 2 then s.params.spReset else if r = 3 then s.params.gpReset else 0#32) ∧
    s.doReset.pc = s.params.resetPc ∧ s.doReset.ppc = 0#32 ∧ s.doReset.halt = .none ∧ s.doReset.fault = none ∧
    s.doReset.gapSeen = false ∧ s.doReset.started = false ∧ s.doReset.out = [] ∧
    SameMemory s s.doReset ∧ s.doReset.params = s.params ∧
    (∀ (p : Params) (memInit : Memory), (State.launch p memInit).mem = memInit ∧
      (State.launch p memInit).doReset = State.launch p memInit) ∧
    ∀ a, State.reset.mem.readByte a = Config.memInit a

/-- The power-on state with the spec's default parameters (R22, R24, R25, R29 to R33). The values of `x2` and `x3`
are the spec's own defaults, marked as general knowledge (log 4). -/
def Obligations.PowerOnRegisterValues : Prop :=
  State.reset.getReg 2 = 0x00003FFC#32 ∧ State.reset.getReg 3 = 0x00001800#32 ∧
  (∀ r : Reg, r ≠ 2 → r ≠ 3 → State.reset.getReg r = 0#32) ∧
  State.reset.pc = 0#32 ∧ State.reset.ppc = 0#32 ∧ State.reset.halt = .none ∧ State.reset.fault = none ∧
  State.reset.gapSeen = false ∧ State.reset.started = false ∧ State.reset.out = []

/-! ## The step -/

/-- R90: a step of a halted block changes no state and has outcome HALTED, and so has every later one; only reset
clears `halt`. -/
def Obligations.HaltedBlockDoesNotStep : Prop :=
  ∀ s : State, s.halt ≠ .none →
    step s = .next s ∧ stepOutcome s = .halted ∧
    (∀ k, (Host.Core.run Sys2Proof.core k s : Host.Outcome State Fault Refusal) = .next s) ∧
    (∀ budget, (run budget s).1 = s) ∧ (∀ j v, j < s.params.memWords.val → (s.load j v).1.halt = s.halt) ∧ s.doReset.halt = .none

/-- R91: a step of a running block sets `started`; where its `pc` is misaligned or outside memory, it halts the block
with a FETCH fault that names the `pc` twice, and nothing else changes. -/
def Obligations.FetchCheckFaults : Prop :=
  ∀ s : State, s.halt = .none →
    (∃ t, step s = .next t ∧ t.started = true) ∧
    (s.pc.toNat % 4 ≠ 0 ∨ s.params.memBytes ≤ s.pc.toNat →
      ∃ t, step s = .next t ∧ t.halt = .fault ∧
        t.fault = some { kind := .fetch, pcOf := s.pc, addr := s.pc } ∧
        t.pc = s.pc ∧ t.ppc = s.ppc ∧ SameRegs s t ∧ SameMemory s t ∧ t.out = s.out ∧ t.gapSeen = s.gapSeen ∧
        t.params = s.params ∧ stepOutcome s = .fault t.fault)

/-- R92 to R94: the step reads the four bytes at an aligned, backed `pc`; then `ppc` is that address, `pc` the address
after it, and the step executes in that state the instruction the bytes decode to, or the decode gap. -/
def Obligations.StepExecutesDecodedInstruction : Prop :=
  ∀ (s fetched : State) (bytes : List Byte), s.halt = .none → s.pc.toNat % 4 = 0 →
    s.pc.toNat < s.params.memBytes → fetched = { s with started := true, ppc := s.pc, pc := s.pc + 4#32 } →
    bytes = [s.mem.readByte s.pc.toNat, s.mem.readByte (s.pc.toNat + 1), s.mem.readByte (s.pc.toNat + 2),
      s.mem.readByte (s.pc.toNat + 3)] →
    (∀ i : Instr, decodeBytes bytes = .ok (i, []) → step s = exec i fetched) ∧
    (∀ g : Gap, decodeBytes bytes = .error g → step s = .next fetched.decodeGap)

/-- R80: a word no row matches changes nothing but `pc`, `ppc`, `gap_seen`, `started` and, under `HALT_ON_GAP`,
`halt`; the outcome names the word. -/
def Obligations.DecodeGapIsRecorded : Prop :=
  ∀ s : State, s.halt = .none → s.pc.toNat % 4 = 0 → s.pc.toNat < s.params.memBytes →
    (∀ o : Op, o.matches (s.memRead s.pc) = false) →
    ∃ t, step s = .next t ∧ t.pc = s.pc + 4#32 ∧ t.ppc = s.pc ∧ t.gapSeen = true ∧ t.started = true ∧
      t.halt = (if s.params.haltOnGap = true then .gap else .none) ∧ t.fault = s.fault ∧
      SameRegs s t ∧ SameMemory s t ∧ t.out = s.out ∧ t.params = s.params ∧
      stepOutcome s = .gap (s.memRead s.pc)

/-- R95: a step always has a next state, and so has every instruction; the outcome says which of the five things
happened. -/
def Obligations.StepAlwaysAnswersWithItsOutcome : Prop :=
  (∀ (i : Instr) (s : State), ∃ t, exec i s = .next t) ∧
  ∀ s : State, ∃ t, step s = .next t ∧
    match stepOutcome s with
    | .ok => s.halt = .none ∧ t.halt = .none ∧ t.gapSeen = s.gapSeen ∧ ∃ i, decodeWord (s.memRead s.pc) = .ok i
    | .gap w => s.halt = .none ∧ s.memRead s.pc = w ∧ (∀ o : Op, o.matches w = false) ∧ t.gapSeen = true ∧
        t.halt = if s.params.haltOnGap = true then .gap else .none
    | .exit => s.halt = .none ∧ t.halt = .exit ∧ decodeWord (s.memRead s.pc) = .ok .ecall ∧
        s.getReg s.params.sysNumReg = 10#32
    | .fault r => s.halt = .none ∧ t.halt = .fault ∧ r = t.fault ∧ r.isSome = true
    | .halted => s.halt ≠ .none ∧ t = s

/-- What the table word placed by the host's hook does: the very next step executes that instruction. -/
def Obligations.PlacedWordIsExecuted : Prop :=
  ∀ (s : State) (nbits w : Nat) (i : Instr), s.halt = .none → s.pc.toNat % 4 = 0 →
    s.pc.toNat < s.params.memBytes → decodeTableWord nbits w = some i →
    step (s.withFetchWord nbits w) = exec i (s.withFetchWord nbits w).fetched ∧
    SameRegs s (s.withFetchWord nbits w) ∧ SameMemoryBut (s.pc.toNat / 4) s (s.withFetchWord nbits w)

/-! ## Whole-machine rules -/

/-- The invariant of Safety.lean is kept by every step (R21, R26, R30, R80, R139, R182). -/
def Obligations.StepKeepsInvariant : Prop :=
  ∀ s t : State, s.Inv → step s = .next t → t.Inv

/-- The invariant holds after reset, and of every launch with an even `RESET_PC` and a backed image. -/
def Obligations.LaunchMeetsInvariant : Prop :=
  State.reset.Inv ∧
  ∀ (p : Params) (m : Memory), p.resetPc.toNat % 2 = 0 → m.wf → m.below p.memBytes → (State.launch p m).Inv

/-- The host's operations keep the invariant: `load` of any slot index, whether accepted or refused, and `reset` (R200)
where `RESET_PC` is even. R100 defines `load` for `j < MEM_WORDS` only; that it is refused, and so keeps the invariant,
for any other `j` is the model's choice (log 12). -/
def Obligations.HostOperationsKeepInvariant : Prop :=
  ∀ s : State, s.Inv →
    (∀ j v, (s.load j v).1.Inv) ∧ (s.params.resetPc.toNat % 2 = 0 → s.doReset.Inv)

/-- R33, R176: no step removes or changes a console byte, and only ECALL with syscall 1 or 4 appends any. -/
def Obligations.ConsoleIsAppendOnly : Prop :=
  ∀ s t : State, step s = .next t →
    s.out <+: t.out ∧
    (t.out ≠ s.out → decodeWord (s.memRead s.pc) = .ok .ecall ∧
      (s.getReg s.params.sysNumReg = 1#32 ∨ s.getReg s.params.sysNumReg = 4#32))

/-- R28, R122: only a store to an address in range changes memory, and it changes no byte outside the slot of the
address it computes; a step that executes no such store changes no byte. -/
def Obligations.OnlyStoresChangeMemory : Prop :=
  ∀ s t : State, step s = .next t →
    (∀ (i : Instr) (a : Word), decodeWord (s.memRead s.pc) = .ok i → storeAddress s i = some a →
      a.toNat < s.params.memBytes → SameMemoryBut (slotIndex a) s t) ∧
    ((∀ (i : Instr) (a : Word), s.halt = .none → s.pc.toNat % 4 = 0 → s.pc.toNat < s.params.memBytes →
        decodeWord (s.memRead s.pc) = .ok i → storeAddress s i = some a → s.params.memBytes ≤ a.toNat) →
      SameMemory s t)

/-- R23: a step changes no register but the destination of the instruction it executes. -/
def Obligations.OnlyTheDestinationRegisterChanges : Prop :=
  ∀ (s t : State) (r : Reg), step s = .next t → t.getReg r ≠ s.getReg r →
    ∃ i : Instr, s.halt = .none ∧ decodeWord (s.memRead s.pc) = .ok i ∧ destReg i = some r

/-- R31: `gap_seen` is set by every decode gap that executes and by nothing else, and only reset clears it. -/
def Obligations.GapSeenIsSticky : Prop :=
  (∀ s t : State, step s = .next t →
    (t.gapSeen = true ↔ s.gapSeen = true ∨
      (s.halt = .none ∧ s.pc.toNat % 4 = 0 ∧ s.pc.toNat < s.params.memBytes ∧
        ∀ o : Op, o.matches (s.memRead s.pc) = false))) ∧
  (∀ (s : State) (j : Nat) (v : Word), j < s.params.memWords.val → (s.load j v).1.gapSeen = s.gapSeen) ∧
  ∀ s : State, s.doReset.gapSeen = false

/-- R24, R92, R140: a step that fetches writes the old `pc` to `ppc`, and leaves `pc` at the next word unless it
executes a branch or a jump. -/
def Obligations.FetchAdvancesThePc : Prop :=
  ∀ s t : State, step s = .next t → s.halt = .none → s.pc.toNat % 4 = 0 → s.pc.toNat < s.params.memBytes →
    t.ppc = s.pc ∧
    (t.pc.toNat = (s.pc.toNat + 4) % 2 ^ 32 ∨
      ∃ i : Instr, decodeWord (s.memRead s.pc) = .ok i ∧ i.op ∈ controlOps)

/-- R186: a step that faults leaves the state before it, but for `halt`, `fault`, `started` (R91, log 14) and, after
a fetch that succeeded, `pc` and `ppc`. -/
def Obligations.FaultsArePrecise : Prop :=
  ∀ s t : State, s.halt = .none → step s = .next t → t.halt = .fault →
    SameRegs s t ∧ SameMemory s t ∧ t.out = s.out ∧ t.gapSeen = s.gapSeen ∧ t.params = s.params ∧
    ∃ f : FaultRecord, t.fault = some f ∧
      (f.kind = .fetch → f.pcOf = s.pc ∧ f.addr = s.pc ∧ t.pc = s.pc ∧ t.ppc = s.ppc ∧
        (s.pc.toNat % 4 ≠ 0 ∨ s.params.memBytes ≤ s.pc.toNat)) ∧
      (f.kind ≠ .fetch → f.pcOf = s.pc ∧ s.params.memBytes ≤ f.addr.toNat ∧ t.ppc = s.pc ∧ t.pc = s.pc + 4#32)

/-- R182: which instruction raises which kind of fault. -/
def Obligations.FaultKindsNameTheirInstructions : Prop :=
  ∀ (s t : State) (f : FaultRecord), s.halt = .none → step s = .next t → t.halt = .fault → t.fault = some f →
    (f.kind = .load → ∃ i : Instr, decodeWord (s.memRead s.pc) = .ok i ∧ i.op ∈ loadOps) ∧
    (f.kind = .store → ∃ i : Instr, decodeWord (s.memRead s.pc) = .ok i ∧ i.op ∈ storeOps) ∧
    (f.kind = .syscallRead → decodeWord (s.memRead s.pc) = .ok .ecall ∧
      s.getReg s.params.sysNumReg = 4#32 ∧ s.fetched.sys4Space = false)

/-- R25, R207: the value `ppc` holds before a fetch that succeeds has no effect on the step. -/
def Obligations.OldPreviousPcIsUnobservable : Prop :=
  ∀ (s : State) (x : Word), s.halt = .none → s.pc.toNat % 4 = 0 → s.pc.toNat < s.params.memBytes →
    step { s with ppc := x } = step s

/-- The parameters of a launch never change, and a step of a running block sets `started` (R32, R91). -/
def Obligations.ParametersAreFixed : Prop :=
  ∀ s t : State, step s = .next t → t.params = s.params ∧ (s.halt = .none → t.started = true) ∧
    (s.started = true → t.started = true)

/-! ## Upper immediates -/

/-- R110, R111: LUI writes the upper immediate; AUIPC adds it to the instruction's own address, wrapping. -/
def Obligations.UpperImmediateResults : Prop :=
  RowIs .lui 0x00000037#32 0x0000007F#32 ∧ RowIs .auipc 0x00000017#32 0x0000007F#32 ∧
  ∀ (rd : Reg) (field : BitVec 20) (s : State),
    (∃ t v, exec (.lui rd (field ++ 0#12)) s = .next t ∧ WritesOnly s rd v t ∧
      v.toNat = field.toNat * 4096) ∧
    (∃ t v, exec (.auipc rd (field ++ 0#12)) s = .next t ∧ WritesOnly s rd v t ∧
      v.toNat = (s.ppc.toNat + field.toNat * 4096) % 2 ^ 32)

/-! ## Integer computation -/

/-- R146, R147, R157: ADD, SUB and ADDI wrap modulo `2^32`. -/
def Obligations.AddAndSubtractResults : Prop :=
  RowIs .add 0x00000033#32 0xFE00707F#32 ∧ RowIs .sub 0x40000033#32 0xFE00707F#32 ∧
  RowIs .addi 0x00000013#32 0x0000707F#32 ∧
  ∀ (rd rs1 rs2 : Reg) (imm : Word) (s : State),
    (∃ t v, exec (.add rd rs1 rs2) s = .next t ∧ WritesOnly s rd v t ∧
      v.toNat = ((s.getReg rs1).toNat + (s.getReg rs2).toNat) % 2 ^ 32) ∧
    (∃ t v, exec (.sub rd rs1 rs2) s = .next t ∧ WritesOnly s rd v t ∧
      v.toNat = (2 ^ 32 + (s.getReg rs1).toNat - (s.getReg rs2).toNat) % 2 ^ 32) ∧
    (∃ t v, exec (.addi rd rs1 imm) s = .next t ∧ WritesOnly s rd v t ∧
      v.toNat = ((s.getReg rs1).toNat + imm.toNat) % 2 ^ 32)

/-- R151, R154, R155, R158, R160, R161: XOR, OR and AND, bit by bit, with a register or an immediate. -/
def Obligations.LogicalResults : Prop :=
  RowIs .xor 0x00004033#32 0xFE00707F#32 ∧ RowIs .or 0x00006033#32 0xFE00707F#32 ∧
  RowIs .and 0x00007033#32 0xFE00707F#32 ∧ RowIs .xori 0x00004013#32 0x0000707F#32 ∧
  RowIs .ori 0x00006013#32 0x0000707F#32 ∧ RowIs .andi 0x00007013#32 0x0000707F#32 ∧
  ∀ (rd rs1 rs2 : Reg) (imm : Word) (s : State),
    (∃ t v, exec (.xor rd rs1 rs2) s = .next t ∧ WritesOnly s rd v t ∧
      ∀ k < 32, v.getLsbD k = true ↔ (s.getReg rs1).getLsbD k ≠ (s.getReg rs2).getLsbD k) ∧
    (∃ t v, exec (.or rd rs1 rs2) s = .next t ∧ WritesOnly s rd v t ∧
      ∀ k < 32, v.getLsbD k = true ↔ (s.getReg rs1).getLsbD k = true ∨ (s.getReg rs2).getLsbD k = true) ∧
    (∃ t v, exec (.and rd rs1 rs2) s = .next t ∧ WritesOnly s rd v t ∧
      ∀ k < 32, v.getLsbD k = true ↔ (s.getReg rs1).getLsbD k = true ∧ (s.getReg rs2).getLsbD k = true) ∧
    (∃ t v, exec (.xori rd rs1 imm) s = .next t ∧ WritesOnly s rd v t ∧
      ∀ k < 32, v.getLsbD k = true ↔ (s.getReg rs1).getLsbD k ≠ imm.getLsbD k) ∧
    (∃ t v, exec (.ori rd rs1 imm) s = .next t ∧ WritesOnly s rd v t ∧
      ∀ k < 32, v.getLsbD k = true ↔ (s.getReg rs1).getLsbD k = true ∨ imm.getLsbD k = true) ∧
    (∃ t v, exec (.andi rd rs1 imm) s = .next t ∧ WritesOnly s rd v t ∧
      ∀ k < 32, v.getLsbD k = true ↔ (s.getReg rs1).getLsbD k = true ∧ imm.getLsbD k = true)

/-- R148, R152, R153, R156: the register shifts, by the low five bits of `x[rs2]`. -/
def Obligations.RegisterShiftResults : Prop :=
  RowIs .sll 0x00001033#32 0xFE00707F#32 ∧ RowIs .srl 0x00005033#32 0xFE00707F#32 ∧
  RowIs .sra 0x40005033#32 0xFE00707F#32 ∧
  ∀ (rd rs1 rs2 : Reg) (s : State),
    (∃ t v, exec (.sll rd rs1 rs2) s = .next t ∧ WritesOnly s rd v t ∧
      v.toNat = (s.getReg rs1).toNat * 2 ^ ((s.getReg rs2).toNat % 32) % 2 ^ 32) ∧
    (∃ t v, exec (.srl rd rs1 rs2) s = .next t ∧ WritesOnly s rd v t ∧
      v.toNat = (s.getReg rs1).toNat / 2 ^ ((s.getReg rs2).toNat % 32)) ∧
    (∃ t v, exec (.sra rd rs1 rs2) s = .next t ∧ WritesOnly s rd v t ∧
      v.toInt = (s.getReg rs1).toInt / 2 ^ ((s.getReg rs2).toNat % 32))

/-- R163, R164, R165: the immediate shifts, by `shamt`; an SLLI word with another funct7 is a gap. -/
def Obligations.ImmediateShiftResults : Prop :=
  RowIs .slli 0x00001013#32 0xFE00707F#32 ∧ RowIs .srli 0x00005013#32 0xFE00707F#32 ∧
  RowIs .srai 0x40005013#32 0xFE00707F#32 ∧
  (∀ w : Word, w &&& 0x0000707F#32 = 0x00001013#32 → w &&& 0xFE000000#32 ≠ 0#32 → ∃ g, decodeWord w = .error g) ∧
  ∀ (rd rs1 : Reg) (shamt : BitVec 5) (s : State),
    (∃ t v, exec (.slli rd rs1 shamt) s = .next t ∧ WritesOnly s rd v t ∧
      v.toNat = (s.getReg rs1).toNat * 2 ^ shamt.toNat % 2 ^ 32) ∧
    (∃ t v, exec (.srli rd rs1 shamt) s = .next t ∧ WritesOnly s rd v t ∧
      v.toNat = (s.getReg rs1).toNat / 2 ^ shamt.toNat) ∧
    (∃ t v, exec (.srai rd rs1 shamt) s = .next t ∧ WritesOnly s rd v t ∧
      v.toInt = (s.getReg rs1).toInt / 2 ^ shamt.toNat)

/-- R149, R150, R159, R162: the compares give 1 or 0. -/
def Obligations.CompareResults : Prop :=
  RowIs .slt 0x00002033#32 0xFE00707F#32 ∧ RowIs .sltu 0x00003033#32 0xFE00707F#32 ∧
  RowIs .slti 0x00002013#32 0x0000707F#32 ∧ RowIs .sltiu 0x00003013#32 0x0000707F#32 ∧
  ∀ (rd rs1 rs2 : Reg) (imm : Word) (s : State),
    (∃ t v, exec (.slt rd rs1 rs2) s = .next t ∧ WritesOnly s rd v t ∧
      v.toNat = if (s.getReg rs1).toInt < (s.getReg rs2).toInt then 1 else 0) ∧
    (∃ t v, exec (.sltu rd rs1 rs2) s = .next t ∧ WritesOnly s rd v t ∧
      v.toNat = if (s.getReg rs1).toNat < (s.getReg rs2).toNat then 1 else 0) ∧
    (∃ t v, exec (.slti rd rs1 imm) s = .next t ∧ WritesOnly s rd v t ∧
      v.toNat = if (s.getReg rs1).toInt < imm.toInt then 1 else 0) ∧
    (∃ t v, exec (.sltiu rd rs1 imm) s = .next t ∧ WritesOnly s rd v t ∧
      v.toNat = if (s.getReg rs1).toNat < imm.toNat then 1 else 0)

/-! ## Loads and stores -/

/-- R116 to R120: a load from a backed address gives the low byte, the low halfword or the whole of the slot the
address lies in, whatever its low two bits, and nothing but the destination changes; a load from any other address
faults, even with `rd = 0`, and writes nothing. -/
def Obligations.LoadResults : Prop :=
  RowIs .lb 0x00000003#32 0x0000707F#32 ∧ RowIs .lh 0x00001003#32 0x0000707F#32 ∧
  RowIs .lw 0x00002003#32 0x0000707F#32 ∧ RowIs .lbu 0x00004003#32 0x0000707F#32 ∧
  RowIs .lhu 0x00005003#32 0x0000707F#32 ∧
  ∀ (rd rs1 : Reg) (imm a : Word) (s : State) (base : Nat),
    a.toNat = ((s.getReg rs1).toNat + imm.toNat) % 2 ^ 32 → base = 4 * (a.toNat / 4) →
    (a.toNat < s.params.memBytes →
      (∃ t v, exec (.lb rd rs1 imm) s = .next t ∧ WritesOnly s rd v t ∧
        v.toInt = (s.mem.readByte base).toInt) ∧
      (∃ t v, exec (.lh rd rs1 imm) s = .next t ∧ WritesOnly s rd v t ∧
        v.toInt = 256 * (s.mem.readByte (base + 1)).toInt + (s.mem.readByte base).toNat) ∧
      (∃ t v, exec (.lw rd rs1 imm) s = .next t ∧ WritesOnly s rd v t ∧
        v.toNat = (s.mem.readByte base).toNat + 2 ^ 8 * (s.mem.readByte (base + 1)).toNat +
          2 ^ 16 * (s.mem.readByte (base + 2)).toNat + 2 ^ 24 * (s.mem.readByte (base + 3)).toNat) ∧
      (∃ t v, exec (.lbu rd rs1 imm) s = .next t ∧ WritesOnly s rd v t ∧
        v.toNat = (s.mem.readByte base).toNat) ∧
      (∃ t v, exec (.lhu rd rs1 imm) s = .next t ∧ WritesOnly s rd v t ∧
        v.toNat = (s.mem.readByte base).toNat + 256 * (s.mem.readByte (base + 1)).toNat)) ∧
    (s.params.memBytes ≤ a.toNat →
      ∃ t, FaultsAt s .load a t ∧ exec (.lb rd rs1 imm) s = .next t ∧ exec (.lh rd rs1 imm) s = .next t ∧
        exec (.lw rd rs1 imm) s = .next t ∧ exec (.lbu rd rs1 imm) s = .next t ∧
        exec (.lhu rd rs1 imm) s = .next t)

/-- R125: SW to a backed address replaces the four bytes of the slot the address lies in with `x[rs2]`, and no other
byte; to any other address it faults and writes nothing. The slot is computed as the meaning computes it. -/
def Obligations.StoreWordResult : Prop :=
  RowIs .sw 0x00002023#32 0x0000707F#32 ∧
  ∀ (rs1 rs2 : Reg) (imm a : Word) (s : State), a = s.effectiveAddress rs1 imm →
    a.toNat = ((s.getReg rs1).toNat + imm.toNat) % 2 ^ 32 ∧ slotIndex a = a.toNat / 4 ∧
    (a.toNat < s.params.memBytes →
      ∃ t, exec (.sw rs1 rs2 imm) s = .next t ∧
        (∀ k < 4, (t.mem.readByte (4 * slotIndex a + k)).toNat = (s.getReg rs2).toNat / 2 ^ (8 * k) % 2 ^ 8) ∧
        SameMemoryBut (slotIndex a) s t ∧ SameRegs s t ∧ t.pc = s.pc ∧ SameRest s t) ∧
    (s.params.memBytes ≤ a.toNat → ∃ t, exec (.sw rs1 rs2 imm) s = .next t ∧ FaultsAt s .store a t)

/-- R123, R124: SB and SH to a backed address replace the whole slot, with all of `x[rs2]` under FULL_WORD, and with
its low byte or halfword, zero-extended, under MASKED_WORD; so the slot's low byte or halfword, which a narrow load of
that address reads, is that of `x[rs2]`. To any other address they fault and write nothing. -/
def Obligations.NarrowStoreResults : Prop :=
  RowIs .sb 0x00000023#32 0x0000707F#32 ∧ RowIs .sh 0x00001023#32 0x0000707F#32 ∧
  ∀ (rs1 rs2 : Reg) (imm a : Word) (s : State), a = s.effectiveAddress rs1 imm →
    (a.toNat < s.params.memBytes →
      (∃ t, exec (.sb rs1 rs2 imm) s = .next t ∧
        (t.mem.readSlot (slotIndex a)).toNat =
          (if s.params.narrowStore = .fullWord then (s.getReg rs2).toNat else (s.getReg rs2).toNat % 2 ^ 8) ∧
        (t.mem.readSlot (slotIndex a)).toNat % 2 ^ 8 = (s.getReg rs2).toNat % 2 ^ 8 ∧
        SameMemoryBut (slotIndex a) s t ∧ SameRegs s t ∧ t.pc = s.pc ∧ SameRest s t) ∧
      (∃ t, exec (.sh rs1 rs2 imm) s = .next t ∧
        (t.mem.readSlot (slotIndex a)).toNat =
          (if s.params.narrowStore = .fullWord then (s.getReg rs2).toNat else (s.getReg rs2).toNat % 2 ^ 16) ∧
        (t.mem.readSlot (slotIndex a)).toNat % 2 ^ 16 = (s.getReg rs2).toNat % 2 ^ 16 ∧
        SameMemoryBut (slotIndex a) s t ∧ SameRegs s t ∧ t.pc = s.pc ∧ SameRest s t)) ∧
    (s.params.memBytes ≤ a.toNat →
      ∃ t, FaultsAt s .store a t ∧ exec (.sb rs1 rs2 imm) s = .next t ∧ exec (.sh rs1 rs2 imm) s = .next t)

/-- R56, R205: a word stored into the slot of the next instruction is the word the next step fetches. -/
def Obligations.StoredWordIsFetchedNext : Prop :=
  ∀ (s : State) (rs1 rs2 : Reg) (imm : Word), s.halt = .none → s.pc.toNat % 4 = 0 →
    s.pc.toNat + 4 < s.params.memBytes → decodeWord (s.memRead s.pc) = .ok (.sw rs1 rs2 imm) →
    (s.effectiveAddress rs1 imm).toNat / 4 = s.pc.toNat / 4 + 1 →
    ∃ t, step s = .next t ∧ t.halt = .none ∧ t.fetchable = true ∧ t.pc = s.pc + 4#32 ∧
      t.fetchWord = s.getReg rs2 ∧
      ∀ i, decodeWord (s.getReg rs2) = .ok i → step t = exec i t.fetched

/-- Two memories in canonical form that list the same addresses and read alike are the same data. The form, and that a
listed byte is kept apart from an unknown one, is the model's choice (log 10). -/
def Obligations.CanonicalMemoriesReadingAlikeAreEqual : Prop :=
  ∀ m m' : Memory, m.wf → m'.wf → (∀ a, (∃ b, (a, b) ∈ m) ↔ (∃ b, (a, b) ∈ m')) →
    (∀ a, m.readByte a = m'.readByte a) → m = m'

/-! ## Control transfer -/

/-- R130 to R136: each branch goes to its own address plus the offset where its relation holds, stays at the next
instruction where it does not, and changes nothing else. -/
def Obligations.BranchResults : Prop :=
  RowIs .beq 0x00000063#32 0x0000707F#32 ∧ RowIs .bne 0x00001063#32 0x0000707F#32 ∧
  RowIs .blt 0x00004063#32 0x0000707F#32 ∧ RowIs .bge 0x00005063#32 0x0000707F#32 ∧
  RowIs .bltu 0x00006063#32 0x0000707F#32 ∧ RowIs .bgeu 0x00007063#32 0x0000707F#32 ∧
  ∀ (rs1 rs2 : Reg) (imm : Word) (s : State),
    (∃ t, exec (.beq rs1 rs2 imm) s = .next t ∧
      BranchesIf ((s.getReg rs1).toNat = (s.getReg rs2).toNat) imm s t) ∧
    (∃ t, exec (.bne rs1 rs2 imm) s = .next t ∧
      BranchesIf ((s.getReg rs1).toNat ≠ (s.getReg rs2).toNat) imm s t) ∧
    (∃ t, exec (.blt rs1 rs2 imm) s = .next t ∧
      BranchesIf ((s.getReg rs1).toInt < (s.getReg rs2).toInt) imm s t) ∧
    (∃ t, exec (.bge rs1 rs2 imm) s = .next t ∧
      BranchesIf ((s.getReg rs2).toInt ≤ (s.getReg rs1).toInt) imm s t) ∧
    (∃ t, exec (.bltu rs1 rs2 imm) s = .next t ∧
      BranchesIf ((s.getReg rs1).toNat < (s.getReg rs2).toNat) imm s t) ∧
    (∃ t, exec (.bgeu rs1 rs2 imm) s = .next t ∧
      BranchesIf ((s.getReg rs2).toNat ≤ (s.getReg rs1).toNat) imm s t)

/-- R137: JAL jumps relative to its own address and links the address after it, in `rd` unless that is `x0`. -/
def Obligations.JumpAndLinkResult : Prop :=
  RowIs .jal 0x0000006F#32 0x0000007F#32 ∧
  ∀ (rd : Reg) (imm : Word) (s : State),
    ∃ t, exec (.jal rd imm) s = .next t ∧ t.pc.toNat = (s.ppc.toNat + imm.toNat) % 2 ^ 32 ∧
      (∀ r : Reg, t.getReg r = if r = rd ∧ r ≠ 0 then s.pc else s.getReg r) ∧ SameMemory s t ∧ SameRest s t

/-- R138: JALR jumps to the old `x[rs1]` plus the offset with bit 0 cleared, and links the address after it, in `rd`
unless that is `x0`, even where `rd = rs1`. -/
def Obligations.JumpRegisterResult : Prop :=
  RowIs .jalr 0x00000067#32 0x0000707F#32 ∧
  ∀ (rd rs1 : Reg) (imm : Word) (s : State),
    ∃ t, exec (.jalr rd rs1 imm) s = .next t ∧
      t.pc.toNat = 2 * (((s.getReg rs1).toNat + imm.toNat) % 2 ^ 32 / 2) ∧
      (∀ r : Reg, t.getReg r = if r = rd ∧ r ≠ 0 then s.pc else s.getReg r) ∧ SameMemory s t ∧ SameRest s t

/-- R139: a branch or jump never faults; its target is even; it writes `pc` and its link register and nothing else; and
where its target is no fetchable address, the next step raises the FETCH fault with the target twice in its record. -/
def Obligations.BadTargetsFaultAtTheNextFetch : Prop :=
  ∀ (s : State) (i : Instr), s.halt = .none → s.pc.toNat % 4 = 0 → s.pc.toNat < s.params.memBytes →
    decodeWord (s.memRead s.pc) = .ok i → i.op ∈ controlOps →
    ∃ t, step s = .next t ∧ stepOutcome s = .ok ∧ t.halt = .none ∧ t.pc.toNat % 2 = 0 ∧
      (∀ r : Reg, t.getReg r = if destReg i = some r ∧ r ≠ 0 then s.pc + 4#32 else s.getReg r) ∧
      SameMemory s t ∧ t.out = s.out ∧
      (t.pc.toNat % 4 = 2 ∨ s.params.memBytes ≤ t.pc.toNat →
        ∃ u, step t = .next u ∧ u.halt = .fault ∧
          u.fault = some { kind := .fetch, pcOf := t.pc, addr := t.pc } ∧ u.pc = t.pc)

/-! ## ECALL

The syscall numbers 1, 4 and 10 are R11's; that they are constants and not parameters is the model's choice (log 22). -/

/-- R171: syscall 1 appends the decimal text of the argument: a `-` exactly when it is negative, then the digits of
its magnitude with no leading zero; nothing else changes. -/
def Obligations.EcallPrintsInteger : Prop :=
  ∀ s : State, s.getReg s.params.sysNumReg = 1#32 →
    ∃ t digits, exec .ecall s = .next t ∧
      t.out = s.out ++ (if (s.getReg s.params.sysArgReg).toInt < 0 then [0x2D#8] else []) ++ digits ∧
      digits ≠ [] ∧ (∀ d ∈ digits, 0x30 ≤ d.toNat ∧ d.toNat ≤ 0x39) ∧
      (digits.head? = some 0x30#8 → digits = [0x30#8]) ∧
      decimalValue digits = (s.getReg s.params.sysArgReg).toInt.natAbs ∧
      SameRegs s t ∧ SameMemory s t ∧ t.pc = s.pc ∧ t.ppc = s.ppc ∧ SameStatus s t ∧ t.params = s.params

/-- R172: syscall 4 appends one space where `SYS4_SPACE` says so; else the bytes from the argument's address up to
the first NUL; else, where no NUL comes before the end of memory, it faults at the first address outside memory and
appends nothing. -/
def Obligations.EcallPrintsStringOrSpace : Prop :=
  ∀ (s : State) (a : Word), s.getReg s.params.sysNumReg = 4#32 → a = s.getReg s.params.sysArgReg →
    (s.sys4Space = true → ∃ t, exec .ecall s = .next t ∧ t.out = s.out ++ [0x20#8] ∧
      SameRegs s t ∧ SameMemory s t ∧ t.pc = s.pc ∧ t.ppc = s.ppc ∧ SameStatus s t ∧ t.params = s.params) ∧
    (∀ n, s.sys4Space = false → a.toNat + n < s.params.memBytes →
      (∀ k < n, s.mem.readByte (a.toNat + k) ≠ 0#8) → s.mem.readByte (a.toNat + n) = 0#8 →
      ∃ t, exec .ecall s = .next t ∧
        t.out = s.out ++ (List.range n).map (fun k => s.mem.readByte (a.toNat + k)) ∧
        SameRegs s t ∧ SameMemory s t ∧ t.pc = s.pc ∧ t.ppc = s.ppc ∧ SameStatus s t ∧ t.params = s.params) ∧
    (∀ p : Word, s.sys4Space = false →
      (∀ x, a.toNat ≤ x → x < s.params.memBytes → s.mem.readByte x ≠ 0#8) →
      p.toNat = max a.toNat s.params.memBytes →
      ∃ t, exec .ecall s = .next t ∧ FaultsAt s .syscallRead p t)

/-- R173: syscall 10 halts with EXIT, and leaves `pc` at the address after the ECALL; every later step is HALTED. -/
def Obligations.EcallExits : Prop :=
  ∀ s : State, s.halt = .none → s.pc.toNat % 4 = 0 → s.pc.toNat < s.params.memBytes →
    s.memRead s.pc = 0x00000073#32 → s.getReg s.params.sysNumReg = 10#32 →
    ∃ t, exec .ecall s.fetched = .next t ∧ step s = .next t ∧ stepOutcome s = .exit ∧ t.halt = .exit ∧
      t.pc = s.pc + 4#32 ∧ t.ppc = s.pc ∧ SameRegs s t ∧ SameMemory s t ∧ t.out = s.out ∧ t.fault = s.fault ∧
      t.gapSeen = s.gapSeen ∧ t.params = s.params ∧ step t = .next t ∧ stepOutcome t = .halted ∧
      ∀ budget, run budget t = (t, .exit)

/-- R174: any other syscall number, compared over all 32 bits, changes nothing but what the fetch changed, and
is no decode gap. -/
def Obligations.EcallWithOtherNumberDoesNothing : Prop :=
  RowIs .ecall 0x00000073#32 0xFFFFFFFF#32 ∧
  ∀ s : State, s.halt = .none → s.pc.toNat % 4 = 0 → s.pc.toNat < s.params.memBytes →
    s.memRead s.pc = 0x00000073#32 → s.getReg s.params.sysNumReg ≠ 1#32 →
    s.getReg s.params.sysNumReg ≠ 4#32 → s.getReg s.params.sysNumReg ≠ 10#32 →
    exec .ecall s = .next s ∧ stepOutcome s = .ok ∧
    ∃ t, step s = .next t ∧ t.pc = s.pc + 4#32 ∧ t.ppc = s.pc ∧ SameRegs s t ∧ SameMemory s t ∧ t.out = s.out ∧
      t.halt = .none ∧ t.fault = s.fault ∧ t.gapSeen = s.gapSeen ∧ t.params = s.params

/-! ## `run` and the loader -/

/-- R96: every step `run` takes starts from a running block whose `pc` is below `TEXT_BOUND`. -/
def Obligations.RunNeverFetchesAtTheBound : Prop :=
  ∀ (budget : Nat) (s u : State), u ∈ runSteps budget s →
    u.halt = .none ∧ u.pc.toNat < s.params.textBound.toNat

/-- R96, R98, R106: `run` is that many steps and no more, and its outcome says how it stopped; BOUND and ABORTED
leave the block running. -/
def Obligations.RunStopsAsItsOutcomeSays : Prop :=
  ∀ (budget : Nat) (s t : State) (o : RunOutcome), run budget s = (t, o) →
    (runSteps budget s).length ≤ budget ∧
    (Host.Core.run Sys2Proof.core (runSteps budget s).length s : Host.Outcome State Fault Refusal) = .next t ∧
    (o = .bound → t.halt = .none ∧ s.params.textBound.toNat ≤ t.pc.toNat) ∧
    (o = .aborted → t.halt = .none ∧ t.pc.toNat < s.params.textBound.toNat ∧
      (runSteps budget s).length = budget) ∧
    (o = .exit ↔ t.halt = .exit) ∧ (o = .gap ↔ t.halt = .gap) ∧
    ((∃ r, o = .fault r) ↔ t.halt = .fault) ∧ (∀ r, o = .fault r → r = t.fault)

/-- R100: `load` is accepted only while `started` is false, and then writes one slot; otherwise it is refused and
changes nothing. A step of a running block closes it, and reset opens it again (R202). -/
def Obligations.LoaderWritesOnlyBeforeTheFirstStep : Prop :=
  ∀ (s : State) (j : Nat) (v : Word),
    (s.started = false → j < s.params.memWords.val →
      ∃ t, s.load j v = (t, .accepted) ∧ t.readMem j = some v ∧ SameMemoryBut j s t ∧ SameRegs s t ∧
        t.pc = s.pc ∧ SameRest s t) ∧
    (s.started = true → s.load j v = (s, .refused)) ∧
    (∀ t, s.halt = .none → step s = .next t → t.load j v = (t, .refused)) ∧
    (j < s.params.memWords.val → (s.doReset.load j v).2 = .accepted) ∧ SameMemory s s.doReset

/-- R48: four image bytes make a slot, the first the least significant, and the byte view takes them apart again. -/
def Obligations.SlotsAreLittleEndian : Prop :=
  (∀ b0 b1 b2 b3 : Byte, (wordOfBytes b0 b1 b2 b3).toNat =
    b0.toNat + 2 ^ 8 * b1.toNat + 2 ^ 16 * b2.toNat + 2 ^ 24 * b3.toNat) ∧
  (∀ (s : State) (j k : Nat) (b0 b1 b2 b3 : Byte) (a : Word), s.started = false →
    j < s.params.memWords.val → k < 4 → a.toNat = 4 * j + k →
    some ((s.load j (wordOfBytes b0 b1 b2 b3)).1.byteView a) = [b0, b1, b2, b3][k]? ∧
    (s.load j (wordOfBytes b0 b1 b2 b3)).1.memRead a = wordOfBytes b0 b1 b2 b3)
end

