-- ==== Sys2Proof/Laws/Memory.lean ====
section
/-! SUPPORT. The laws of the sparse memory: read after write, and that every operation keeps the canonical form and
the backed range. -/

namespace Sys2Proof.Machine

@[simp] theorem readByte_nil (a : Nat) : Memory.readByte [] a = Memory.unlisted a := rfl

/-- An address no cell lists reads as unlisted. -/
theorem readByte_of_not_listed {m : Memory} {a : Nat} (h : ∀ c ∈ m, c.1 ≠ a) :
    m.readByte a = Memory.unlisted a := by
  induction m with
  | nil => rfl
  | cons c rest ih =>
    have hc : a ≠ c.1 := fun e => h c (by simp) e.symm
    simp only [Memory.readByte, if_neg hc]
    exact ih fun d hd => h d (by simp [hd])

/-- A listed cell is what its address reads as, in canonical form. -/
theorem readByte_of_mem {m : Memory} (hm : m.wf) {c : Host.Cell} (hc : c ∈ m) : m.readByte c.1 = c.2 := by
  induction m with
  | nil => simp at hc
  | cons d rest ih =>
    rw [Memory.wf, List.pairwise_cons] at hm
    rcases List.mem_cons.mp hc with rfl | hc
    · simp [Memory.readByte]
    · have hlt := hm.1 c hc
      have hne : c.1 ≠ d.1 := by omega
      simp only [Memory.readByte, if_neg hne]
      exact ih hm.2 hc

/-- A write changes no other byte. -/
theorem readByte_writeByte_other {m : Memory} {a a' : Nat} {b : Byte} (h : a' ≠ a) :
    (m.writeByte a b).readByte a' = m.readByte a' := by
  induction m with
  | nil => simp [Memory.writeByte, Memory.readByte, h]
  | cons c rest ih =>
    obtain ⟨k, v⟩ := c
    simp only [Memory.writeByte]
    split_ifs with h1 h2
    · simp [Memory.readByte, h]
    · simp [Memory.readByte, h2 ▸ h, h]
    · simp only [Memory.readByte, ih]

/-- A byte reads as it was last written. -/
@[simp] theorem readByte_writeByte_same (m : Memory) (a : Nat) (b : Byte) : (m.writeByte a b).readByte a = b := by
  induction m with
  | nil => simp [Memory.writeByte, Memory.readByte]
  | cons c rest ih =>
    obtain ⟨k, v⟩ := c
    simp only [Memory.writeByte]
    split_ifs with h1 h2
    · simp [Memory.readByte]
    · simp [Memory.readByte]
    · simp only [Memory.readByte, if_neg h2, ih]

/-- Every cell after a write is an old cell or the written one. -/
theorem mem_writeByte {m : Memory} {a : Nat} {b : Byte} {c : Host.Cell} (h : c ∈ m.writeByte a b) :
    c ∈ m ∨ c = (a, b) := by
  induction m with
  | nil => exact .inr (by simpa [Memory.writeByte] using h)
  | cons d rest ih =>
    obtain ⟨k, v⟩ := d
    simp only [Memory.writeByte] at h
    split_ifs at h
    · exact (List.mem_cons.mp h).symm
    · exact (List.mem_cons.mp h).symm.imp_left (List.mem_cons_of_mem _)
    · rcases List.mem_cons.mp h with h | h
      · exact .inl (by simp [h])
      · exact (ih h).imp_left (List.mem_cons_of_mem _)

/-- A write keeps the canonical form. -/
theorem wf_writeByte {m : Memory} (hm : m.wf) (a : Nat) (b : Byte) : (m.writeByte a b).wf := by
  induction m with
  | nil => simp [Memory.writeByte]
  | cons d rest ih =>
    obtain ⟨k, v⟩ := d
    have hs := List.pairwise_cons.mp hm
    simp only [Memory.writeByte]
    split_ifs with h1 h2
    · refine List.pairwise_cons.mpr ⟨fun e he => ?_, hm⟩
      rcases List.mem_cons.mp he with rfl | he
      · exact h1
      · exact h1.trans (hs.1 e he)
    · exact List.pairwise_cons.mpr ⟨h2 ▸ hs.1, hs.2⟩
    · refine List.pairwise_cons.mpr ⟨fun e he => ?_, ih hs.2⟩
      rcases mem_writeByte he with he | rfl
      · exact hs.1 e he
      · simp; omega

/-- A write below the bound lists nothing above it. -/
theorem below_writeByte {m : Memory} {bound : Nat} (hm : m.below bound) {a : Nat} (ha : a < bound) (b : Byte) :
    (m.writeByte a b).below bound := fun c hc => by
  rcases mem_writeByte hc with hc | rfl
  · exact hm c hc
  · exact ha

/-! ## Slots -/

/-- A slot's four lanes put together are the slot. -/
theorem wordOfBytes_lanes (v : Word) : wordOfBytes (laneOf v 0) (laneOf v 1) (laneOf v 2) (laneOf v 3) = v := by
  apply BitVec.eq_of_getLsbD_eq
  intro i hi
  simp only [wordOfBytes, laneOf, BitVec.getLsbD_append, BitVec.getLsbD_extractLsb']
  by_cases h0 : i < 8
  · simp [h0]
  · by_cases h1 : i < 16
    · have : i - 8 < 8 := by omega
      simp [h0, this]
      congr 1; omega
    · by_cases h2 : i < 24
      · have h3 : ¬ i - 8 < 8 := by omega
        have h4 : i - 8 - 8 < 8 := by omega
        simp [h0, h3, h4]
        congr 1; omega
      · have h3 : ¬ i - 8 < 8 := by omega
        have h4 : ¬ i - 8 - 8 < 8 := by omega
        have h5 : i - 8 - 8 - 8 < 8 := by omega
        simp [h0, h3, h4, h5]
        congr 1; omega

/-- The bytes of a written slot. -/
theorem readByte_writeSlot_lane (m : Memory) (j k : Nat) (hk : k < 4) (v : Word) :
    (m.writeSlot j v).readByte (4 * j + k) = laneOf v k := by
  unfold Memory.writeSlot
  obtain rfl | rfl | rfl | rfl : k = 0 ∨ k = 1 ∨ k = 2 ∨ k = 3 := by omega
  · rw [readByte_writeByte_other (by omega), readByte_writeByte_other (by omega),
      readByte_writeByte_other (by omega)]
    exact readByte_writeByte_same _ _ _
  · rw [readByte_writeByte_other (by omega), readByte_writeByte_other (by omega), readByte_writeByte_same]
  · rw [readByte_writeByte_other (by omega), readByte_writeByte_same]
  · exact readByte_writeByte_same _ _ _

/-- A slot write changes no byte of another slot. -/
theorem readByte_writeSlot_other {m : Memory} {j a : Nat} {v : Word} (h : a < 4 * j ∨ 4 * j + 3 < a) :
    (m.writeSlot j v).readByte a = m.readByte a := by
  unfold Memory.writeSlot
  rw [readByte_writeByte_other (by omega), readByte_writeByte_other (by omega),
    readByte_writeByte_other (by omega), readByte_writeByte_other (by omega)]

/-- A slot reads as it was last written. -/
@[simp] theorem readSlot_writeSlot_same (m : Memory) (j : Nat) (v : Word) : (m.writeSlot j v).readSlot j = v := by
  have h := fun k hk => readByte_writeSlot_lane m j k hk v
  unfold Memory.readSlot
  rw [show 4 * j = 4 * j + 0 from rfl, h 0 (by omega), h 1 (by omega), h 2 (by omega), h 3 (by omega)]
  exact wordOfBytes_lanes v

/-- A slot write changes no other slot. -/
theorem readSlot_writeSlot_other {m : Memory} {j j' : Nat} {v : Word} (h : j' ≠ j) :
    (m.writeSlot j v).readSlot j' = m.readSlot j' := by
  unfold Memory.readSlot
  rw [readByte_writeSlot_other (by omega), readByte_writeSlot_other (by omega),
    readByte_writeSlot_other (by omega), readByte_writeSlot_other (by omega)]

/-- A slot write keeps the canonical form. -/
theorem wf_writeSlot {m : Memory} (hm : m.wf) (j : Nat) (v : Word) : (m.writeSlot j v).wf :=
  wf_writeByte (wf_writeByte (wf_writeByte (wf_writeByte hm _ _) _ _) _ _) _ _

/-- A write to a backed slot lists nothing outside memory. -/
theorem below_writeSlot {m : Memory} {words : Nat} (hm : m.below (4 * words)) {j : Nat} (hj : j < words) (v : Word) :
    (m.writeSlot j v).below (4 * words) :=
  below_writeByte (below_writeByte (below_writeByte (below_writeByte hm (by omega) _) (by omega) _) (by omega) _)
    (by omega) _

end Sys2Proof.Machine
end

