-- ==== Sys2Proof/Laws/State.lean ====
section
/-! SUPPORT. One lemma per field per state update, so that no proof unfolds a record update. -/

namespace Sys2Proof.Machine

section SetReg
variable (s : State) (i : Reg) (v : Word)
@[simp] theorem setReg_pc : (s.setReg i v).pc = s.pc := by
  unfold State.setReg; split <;> rfl
@[simp] theorem setReg_ppc : (s.setReg i v).ppc = s.ppc := by
  unfold State.setReg; split <;> rfl
@[simp] theorem setReg_mem : (s.setReg i v).mem = s.mem := by
  unfold State.setReg; split <;> rfl
@[simp] theorem setReg_halt : (s.setReg i v).halt = s.halt := by
  unfold State.setReg; split <;> rfl
@[simp] theorem setReg_fault : (s.setReg i v).fault = s.fault := by
  unfold State.setReg; split <;> rfl
@[simp] theorem setReg_gapSeen : (s.setReg i v).gapSeen = s.gapSeen := by
  unfold State.setReg; split <;> rfl
@[simp] theorem setReg_started : (s.setReg i v).started = s.started := by
  unfold State.setReg; split <;> rfl
@[simp] theorem setReg_out : (s.setReg i v).out = s.out := by
  unfold State.setReg; split <;> rfl
@[simp] theorem setReg_params : (s.setReg i v).params = s.params := by
  unfold State.setReg; split <;> rfl
end SetReg

section SetPc
variable (s : State) (t : Word)
@[simp] theorem setPc_regs : (s.setPc t).regs = s.regs := rfl
@[simp] theorem setPc_pc : (s.setPc t).pc = t := rfl
@[simp] theorem setPc_ppc : (s.setPc t).ppc = s.ppc := rfl
@[simp] theorem setPc_mem : (s.setPc t).mem = s.mem := rfl
@[simp] theorem setPc_halt : (s.setPc t).halt = s.halt := rfl
@[simp] theorem setPc_fault : (s.setPc t).fault = s.fault := rfl
@[simp] theorem setPc_gapSeen : (s.setPc t).gapSeen = s.gapSeen := rfl
@[simp] theorem setPc_started : (s.setPc t).started = s.started := rfl
@[simp] theorem setPc_out : (s.setPc t).out = s.out := rfl
@[simp] theorem setPc_params : (s.setPc t).params = s.params := rfl
end SetPc

section MemWrite
variable (s : State) (a v : Word)
@[simp] theorem memWrite_regs : (s.memWrite a v).regs = s.regs := rfl
@[simp] theorem memWrite_pc : (s.memWrite a v).pc = s.pc := rfl
@[simp] theorem memWrite_ppc : (s.memWrite a v).ppc = s.ppc := rfl
@[simp] theorem memWrite_mem : (s.memWrite a v).mem = s.mem.writeSlot (slotIndex a) v := rfl
@[simp] theorem memWrite_halt : (s.memWrite a v).halt = s.halt := rfl
@[simp] theorem memWrite_fault : (s.memWrite a v).fault = s.fault := rfl
@[simp] theorem memWrite_gapSeen : (s.memWrite a v).gapSeen = s.gapSeen := rfl
@[simp] theorem memWrite_started : (s.memWrite a v).started = s.started := rfl
@[simp] theorem memWrite_out : (s.memWrite a v).out = s.out := rfl
@[simp] theorem memWrite_params : (s.memWrite a v).params = s.params := rfl
end MemWrite

section Raise
variable (s : State) (k : FaultKind) (p a : Word)
@[simp] theorem raise_regs : (s.raise k p a).regs = s.regs := rfl
@[simp] theorem raise_pc : (s.raise k p a).pc = s.pc := rfl
@[simp] theorem raise_ppc : (s.raise k p a).ppc = s.ppc := rfl
@[simp] theorem raise_mem : (s.raise k p a).mem = s.mem := rfl
@[simp] theorem raise_halt : (s.raise k p a).halt = .fault := rfl
@[simp] theorem raise_fault : (s.raise k p a).fault = some ⟨k, p, a⟩ := rfl
@[simp] theorem raise_gapSeen : (s.raise k p a).gapSeen = s.gapSeen := rfl
@[simp] theorem raise_started : (s.raise k p a).started = s.started := rfl
@[simp] theorem raise_out : (s.raise k p a).out = s.out := rfl
@[simp] theorem raise_params : (s.raise k p a).params = s.params := rfl
end Raise

section DecodeGap
variable (s : State)
@[simp] theorem decodeGap_regs : s.decodeGap.regs = s.regs := rfl
@[simp] theorem decodeGap_pc : s.decodeGap.pc = s.pc := rfl
@[simp] theorem decodeGap_ppc : s.decodeGap.ppc = s.ppc := rfl
@[simp] theorem decodeGap_mem : s.decodeGap.mem = s.mem := rfl
@[simp] theorem decodeGap_halt : s.decodeGap.halt = if s.params.haltOnGap then .gap else s.halt := rfl
@[simp] theorem decodeGap_fault : s.decodeGap.fault = s.fault := rfl
@[simp] theorem decodeGap_gapSeen : s.decodeGap.gapSeen = true := rfl
@[simp] theorem decodeGap_started : s.decodeGap.started = s.started := rfl
@[simp] theorem decodeGap_out : s.decodeGap.out = s.out := rfl
@[simp] theorem decodeGap_params : s.decodeGap.params = s.params := rfl
end DecodeGap

section Print
variable (s : State) (bs : List Byte)
@[simp] theorem print_regs : (s.print bs).regs = s.regs := rfl
@[simp] theorem print_pc : (s.print bs).pc = s.pc := rfl
@[simp] theorem print_ppc : (s.print bs).ppc = s.ppc := rfl
@[simp] theorem print_mem : (s.print bs).mem = s.mem := rfl
@[simp] theorem print_halt : (s.print bs).halt = s.halt := rfl
@[simp] theorem print_fault : (s.print bs).fault = s.fault := rfl
@[simp] theorem print_gapSeen : (s.print bs).gapSeen = s.gapSeen := rfl
@[simp] theorem print_started : (s.print bs).started = s.started := rfl
@[simp] theorem print_out : (s.print bs).out = s.out ++ bs := rfl
@[simp] theorem print_params : (s.print bs).params = s.params := rfl
end Print

section Exit
variable (s : State)
@[simp] theorem exit_regs : s.exit.regs = s.regs := rfl
@[simp] theorem exit_pc : s.exit.pc = s.pc := rfl
@[simp] theorem exit_ppc : s.exit.ppc = s.ppc := rfl
@[simp] theorem exit_mem : s.exit.mem = s.mem := rfl
@[simp] theorem exit_halt : s.exit.halt = .exit := rfl
@[simp] theorem exit_fault : s.exit.fault = s.fault := rfl
@[simp] theorem exit_gapSeen : s.exit.gapSeen = s.gapSeen := rfl
@[simp] theorem exit_started : s.exit.started = s.started := rfl
@[simp] theorem exit_out : s.exit.out = s.out := rfl
@[simp] theorem exit_params : s.exit.params = s.params := rfl
end Exit

section Fetched
variable (s : State)
@[simp] theorem fetched_regs : s.fetched.regs = s.regs := rfl
@[simp] theorem fetched_pc : s.fetched.pc = s.pc + 4#32 := rfl
@[simp] theorem fetched_ppc : s.fetched.ppc = s.pc := rfl
@[simp] theorem fetched_mem : s.fetched.mem = s.mem := rfl
@[simp] theorem fetched_halt : s.fetched.halt = s.halt := rfl
@[simp] theorem fetched_fault : s.fetched.fault = s.fault := rfl
@[simp] theorem fetched_gapSeen : s.fetched.gapSeen = s.gapSeen := rfl
@[simp] theorem fetched_started : s.fetched.started = true := rfl
@[simp] theorem fetched_out : s.fetched.out = s.out := rfl
@[simp] theorem fetched_params : s.fetched.params = s.params := rfl
end Fetched

section FetchFault
variable (s : State)
@[simp] theorem fetchFault_regs : s.fetchFault.regs = s.regs := rfl
@[simp] theorem fetchFault_pc : s.fetchFault.pc = s.pc := rfl
@[simp] theorem fetchFault_ppc : s.fetchFault.ppc = s.ppc := rfl
@[simp] theorem fetchFault_mem : s.fetchFault.mem = s.mem := rfl
@[simp] theorem fetchFault_halt : s.fetchFault.halt = .fault := rfl
@[simp] theorem fetchFault_fault : s.fetchFault.fault = some ⟨.fetch, s.pc, s.pc⟩ := rfl
@[simp] theorem fetchFault_gapSeen : s.fetchFault.gapSeen = s.gapSeen := rfl
@[simp] theorem fetchFault_started : s.fetchFault.started = true := rfl
@[simp] theorem fetchFault_out : s.fetchFault.out = s.out := rfl
@[simp] theorem fetchFault_params : s.fetchFault.params = s.params := rfl
end FetchFault

section DoReset
variable (s : State)
@[simp] theorem doReset_regs : s.doReset.regs = resetRegs s.params := rfl
@[simp] theorem doReset_pc : s.doReset.pc = s.params.resetPc := rfl
@[simp] theorem doReset_ppc : s.doReset.ppc = 0#32 := rfl
@[simp] theorem doReset_mem : s.doReset.mem = s.mem := rfl
@[simp] theorem doReset_halt : s.doReset.halt = .none := rfl
@[simp] theorem doReset_fault : s.doReset.fault = none := rfl
@[simp] theorem doReset_gapSeen : s.doReset.gapSeen = false := rfl
@[simp] theorem doReset_started : s.doReset.started = false := rfl
@[simp] theorem doReset_out : s.doReset.out = [] := rfl
@[simp] theorem doReset_params : s.doReset.params = s.params := rfl
end DoReset

end Sys2Proof.Machine
end

