-- ==== Sys2Proof/Laws/Ops.lean ====
section
/-! SUPPORT. One specification lemma per operation over registers and memory. -/

namespace Sys2Proof.Machine

/-! ## Registers -/

@[simp] theorem getReg_zero (s : State) : s.getReg 0 = 0#32 := by simp [State.getReg]

/-- A register reads as it was last written; `x0` reads 0 (R16, R21). -/
theorem getReg_setReg (s : State) (i r : Reg) (v : Word) :
    (s.setReg i v).getReg r = if r = i ∧ r ≠ 0 then v else s.getReg r := by
  unfold State.setReg State.getReg
  by_cases hi : i = 0
  · subst hi
    by_cases hr : r = 0 <;> simp [hr]
  · by_cases hr : r = 0
    · simp [hr]
    · by_cases e : r = i
      · subst e
        simp [hr]
      · have : i.val ≠ r.val := fun h => e (Fin.ext h.symm)
        simp [hi, hr, e, Vector.getElem_set_ne _ _ this]

/-- Writing `x0` does nothing (R21). -/
@[simp] theorem setReg_zero (s : State) (v : Word) : s.setReg 0 v = s := by simp [State.setReg]

/-- No register write reaches the slot that stands for `x0`. -/
@[simp] theorem setReg_slotZero (s : State) (i : Reg) (v : Word) : (s.setReg i v).regs[0] = s.regs[0] := by
  unfold State.setReg
  split
  · rfl
  · rename_i h
    have : i.val ≠ 0 := fun e => h (Fin.ext e)
    simp [Vector.getElem_set_ne _ _ this]

@[simp] theorem getReg_setPc (s : State) (t : Word) (r : Reg) : (s.setPc t).getReg r = s.getReg r := rfl
@[simp] theorem getReg_memWrite (s : State) (a v : Word) (r : Reg) : (s.memWrite a v).getReg r = s.getReg r := rfl
@[simp] theorem getReg_raise (s : State) (k : FaultKind) (p a : Word) (r : Reg) :
    (s.raise k p a).getReg r = s.getReg r := rfl
@[simp] theorem getReg_decodeGap (s : State) (r : Reg) : s.decodeGap.getReg r = s.getReg r := rfl
@[simp] theorem getReg_print (s : State) (bs : List Byte) (r : Reg) : (s.print bs).getReg r = s.getReg r := rfl
@[simp] theorem getReg_exit (s : State) (r : Reg) : s.exit.getReg r = s.getReg r := rfl
@[simp] theorem getReg_fetched (s : State) (r : Reg) : s.fetched.getReg r = s.getReg r := rfl
@[simp] theorem getReg_fetchFault (s : State) (r : Reg) : s.fetchFault.getReg r = s.getReg r := rfl

/-! ## Memory -/

/-- `InRange` as an inequality (R43). -/
theorem inRange_iff (s : State) (a : Word) : s.inRange a = true ↔ a.toNat < s.params.memBytes := by
  simp [State.inRange]

/-- The fetch check as a condition on the `pc` (R91). -/
theorem fetchable_iff (s : State) : s.fetchable = true ↔ s.pc.toNat % 4 = 0 ∧ s.pc.toNat < s.params.memBytes := by
  simp [State.fetchable, State.inRange]

/-- The fetch check failing (R91). -/
theorem fetchable_eq_false (s : State) :
    s.fetchable = false ↔ s.pc.toNat % 4 ≠ 0 ∨ s.params.memBytes ≤ s.pc.toNat := by
  rw [← Bool.not_eq_true, fetchable_iff]
  omega

/-- The slot of an address is its quotient by 4 (R41). -/
theorem slotIndex_eq (a : Word) : slotIndex a = a.toNat / 4 := by
  simp [slotIndex, Nat.shiftRight_eq_div_pow]

/-- An address in range selects a backed slot. -/
theorem slotIndex_lt {s : State} {a : Word} (h : s.inRange a = true) : slotIndex a < s.params.memWords.val := by
  rw [inRange_iff, Params.memBytes] at h
  rw [slotIndex_eq]
  omega

@[simp] theorem inRange_setPc (s : State) (t a : Word) : (s.setPc t).inRange a = s.inRange a := rfl
@[simp] theorem inRange_fetched (s : State) (a : Word) : s.fetched.inRange a = s.inRange a := rfl

/-- A load of the slot just stored gives the stored word (R54). -/
theorem memRead_memWrite_same (s : State) (a a' v : Word) (h : slotIndex a' = slotIndex a) :
    (s.memWrite a v).memRead a' = v := by
  simp only [State.memRead, memWrite_mem, h, readSlot_writeSlot_same]

/-- A store changes no other slot (R45). -/
theorem memRead_memWrite_other (s : State) (a a' v : Word) (h : slotIndex a' ≠ slotIndex a) :
    (s.memWrite a v).memRead a' = s.memRead a' := by
  simp only [State.memRead, memWrite_mem]
  exact readSlot_writeSlot_other h

/-- A store keeps the canonical form. -/
theorem wf_memWrite {s : State} (hm : s.mem.wf) (a v : Word) : (s.memWrite a v).mem.wf := wf_writeSlot hm _ _

/-- A store in range lists nothing outside memory. -/
theorem below_memWrite {s : State} (hm : s.mem.below s.params.memBytes) {a : Word} (ha : s.inRange a = true)
    (v : Word) : (s.memWrite a v).mem.below s.params.memBytes :=
  below_writeSlot hm (slotIndex_lt ha) v

/-- Lane `k` of four bytes put together is byte `k` (R47, R48). -/
theorem lane_wordOfBytes (b0 b1 b2 b3 : Byte) :
    (wordOfBytes b0 b1 b2 b3 >>> 0).extractLsb' 0 8 = b0 ∧ (wordOfBytes b0 b1 b2 b3 >>> 8).extractLsb' 0 8 = b1 ∧
    (wordOfBytes b0 b1 b2 b3 >>> 16).extractLsb' 0 8 = b2 ∧
    (wordOfBytes b0 b1 b2 b3 >>> 24).extractLsb' 0 8 = b3 := by
  refine ⟨?_, ?_, ?_, ?_⟩ <;>
    (apply BitVec.eq_of_getLsbD_eq
     intro i hi
     simp only [wordOfBytes, BitVec.getLsbD_extractLsb', BitVec.getLsbD_ushiftRight, BitVec.getLsbD_append, hi]
     simp only [decide_true, Bool.true_and]
     split_ifs <;> first | omega | (congr 1; omega))

/-- The byte view reads one byte of memory (R47). -/
theorem byteView_eq (s : State) (a : Word) : s.byteView a = s.mem.readByte a.toNat := by
  have h := lane_wordOfBytes (s.mem.readByte (4 * slotIndex a)) (s.mem.readByte (4 * slotIndex a + 1))
    (s.mem.readByte (4 * slotIndex a + 2)) (s.mem.readByte (4 * slotIndex a + 3))
  simp only [State.byteView, State.memRead, Memory.readSlot]
  have hj := slotIndex_eq a
  obtain e | e | e | e : a.toNat % 4 = 0 ∨ a.toNat % 4 = 1 ∨ a.toNat % 4 = 2 ∨ a.toNat % 4 = 3 := by omega
  · rw [e]; refine h.1.trans (congrArg _ ?_); omega
  · rw [e]; refine h.2.1.trans (congrArg _ ?_); omega
  · rw [e]; refine h.2.2.1.trans (congrArg _ ?_); omega
  · rw [e]; refine h.2.2.2.trans (congrArg _ ?_); omega

/-! ## Operands -/

/-- A register shift amount is the register modulo 32 (R156). -/
theorem shiftAmount_eq (v : Word) : shiftAmount v = v.toNat % 32 := by
  simp [shiftAmount, BitVec.extractLsb'_toNat]

/-- The JALR target is the sum with bit 0 cleared (R138). -/
theorem jalrTarget_toNat (s : State) (rs1 : Reg) (imm : Word) :
    (s.jalrTarget rs1 imm).toNat = (s.getReg rs1 + imm).toNat - (s.getReg rs1 + imm).toNat % 2 := by
  have key : ∀ x : Word, (x &&& 0xFFFFFFFE#32) = (x >>> 1) <<< 1 := by
    intro x
    apply BitVec.eq_of_getLsbD_eq
    intro i hi
    simp only [BitVec.getLsbD_and, BitVec.getLsbD_shiftLeft, BitVec.getLsbD_ushiftRight]
    have hc : (0xFFFFFFFE#32).getLsbD i = !decide (i < 1) := by
      revert i
      decide
    rw [hc]
    by_cases h : i < 1
    · simp [h]
    · have : 1 + (i - 1) = i := by omega
      simp [h, hi, this]
  have hlt := (s.getReg rs1 + imm).isLt
  simp only [State.jalrTarget, key, BitVec.toNat_shiftLeft, BitVec.toNat_ushiftRight, Nat.shiftLeft_eq,
    Nat.shiftRight_eq_div_pow]
  omega

end Sys2Proof.Machine
end

