-- ==== Sys2Proof/Laws/Exec.lean ====
section
/-! SUPPORT. What each shared operation of the meanings does, and, said once, everything an instruction can do
(`exec_effect`): proofs over all instructions cite it instead of unfolding the meanings. -/

namespace Sys2Proof.Machine

/-! ## Shared operations -/

/-- A load in range (R115). -/
theorem loadWith_inRange {f : Word → Word} {rd rs1 : Reg} {imm : Word} {s : State}
    (h : s.inRange (s.effectiveAddress rs1 imm) = true) :
    loadWith f rd rs1 imm s = s.setReg rd (f (s.memRead (s.effectiveAddress rs1 imm))) := by
  simp [loadWith, h]

/-- A load out of range (R115). -/
theorem loadWith_outOfRange {f : Word → Word} {rd rs1 : Reg} {imm : Word} {s : State}
    (h : s.inRange (s.effectiveAddress rs1 imm) = false) :
    loadWith f rd rs1 imm s = s.raise .load s.ppc (s.effectiveAddress rs1 imm) := by
  simp [loadWith, h]

/-- A store in range (R115, R122). -/
theorem storeValue_inRange {rs1 : Reg} {imm v : Word} {s : State}
    (h : s.inRange (s.effectiveAddress rs1 imm) = true) :
    storeValue rs1 imm v s = s.memWrite (s.effectiveAddress rs1 imm) v := by
  simp [storeValue, h]

/-- The address a store stores to is computed from registers, which the fetch leaves alone (R115, R92). -/
@[simp] theorem storeAddress_fetched (s : State) (i : Instr) : storeAddress s.fetched i = storeAddress s i := by
  cases i <;> rfl

/-- A store out of range (R115). -/
theorem storeValue_outOfRange {rs1 : Reg} {imm v : Word} {s : State}
    (h : s.inRange (s.effectiveAddress rs1 imm) = false) :
    storeValue rs1 imm v s = s.raise .store s.ppc (s.effectiveAddress rs1 imm) := by
  simp [storeValue, h]

/-- The next address of a walk inside memory does not wrap. -/
theorem toNat_succ_of_inRange {s : State} {p : Word} (h : p.toNat < s.params.memBytes) :
    (p + 1#32).toNat = p.toNat + 1 := by
  have hw := s.params.memWords.isLt
  have : p.toNat < 4 * s.params.memWords.val := h
  rw [BitVec.toNat_add]
  simp
  omega

/-- The string walk (R172) finds a NUL with only non-NUL bytes before it, and returns those. -/
theorem readString_ok {s : State} {left : Nat} {p : Word} {bytes : List Byte}
    (hl : left = s.params.memBytes - p.toNat) (h : readString s left p = .ok bytes) :
    p.toNat + bytes.length < s.params.memBytes ∧ s.mem.readByte (p.toNat + bytes.length) = 0#8 ∧
    ∀ k, k < bytes.length → bytes[k]? = some (s.mem.readByte (p.toNat + k)) ∧ s.mem.readByte (p.toNat + k) ≠ 0#8 := by
  induction left generalizing p bytes with
  | zero => simp [readString] at h
  | succ left ih =>
    have hp : p.toNat < s.params.memBytes := by omega
    have hsucc := toNat_succ_of_inRange hp
    simp only [readString, byteView_eq] at h
    split at h
    · rename_i hb
      cases h
      simp [hp, hb]
    · rename_i hb
      split at h
      · rename_i bytes' hrec
        cases h
        obtain ⟨h1, h2, h3⟩ := ih (by omega) hrec
        rw [hsucc] at h1 h2 h3
        refine ⟨by simp; omega, by simpa [Nat.add_assoc, Nat.add_comm 1] using h2, fun k hk => ?_⟩
        cases k with
        | zero => simpa using hb
        | succ k =>
          have := h3 k (by simpa using hk)
          simpa [Nat.add_assoc, Nat.add_comm 1] using this
      · cases h

/-- The string walk (R172) fails at the first address outside memory, after non-NUL bytes only. -/
theorem readString_error {s : State} {left : Nat} {p q : Word}
    (hl : left = s.params.memBytes - p.toNat) (h : readString s left p = .error q) :
    q.toNat = max p.toNat s.params.memBytes ∧
    ∀ a, p.toNat ≤ a → a < s.params.memBytes → s.mem.readByte a ≠ 0#8 := by
  induction left generalizing p with
  | zero =>
    simp only [readString] at h
    cases h
    exact ⟨by omega, fun a h1 h2 => by omega⟩
  | succ left ih =>
    have hp : p.toNat < s.params.memBytes := by omega
    have hsucc := toNat_succ_of_inRange hp
    simp only [readString, byteView_eq] at h
    split at h
    · cases h
    · rename_i hb
      split at h
      · cases h
      · rename_i q' hrec
        cases h
        obtain ⟨h1, h2⟩ := ih (by omega) hrec
        rw [hsucc] at h1 h2
        refine ⟨by omega, fun a ha ha' => ?_⟩
        by_cases e : a = p.toNat
        · exact e ▸ hb
        · exact h2 a (by omega) ha'

/-! ## Everything an instruction can do -/

/-- A target a well-formed instruction may write to `pc`: even wherever `pc` and `ppc` are (R139). -/
def EvenTarget (i : Instr) (s : State) (target : Word) : Prop :=
  i.wf = true → s.pc.toNat % 2 = 0 → s.ppc.toNat % 2 = 0 → target.toNat % 2 = 0

/-- Why an instruction raises a fault of a kind (R182). -/
def FaultCause (i : Instr) (s : State) (kind : FaultKind) : Prop :=
  (kind = .load ∧ i.op ∈ loadOps) ∨ (kind = .store ∧ i.op ∈ storeOps) ∨
  (kind = .syscallRead ∧ i = .ecall ∧ s.getReg s.params.sysNumReg = 4#32 ∧ s.sys4Space = false)

/-- The effects an instruction can have on the state the fetch left. -/
inductive Effect (i : Instr) (s : State) : State → Prop where
  /-- It writes its destination register or none (`x0`), and `pc` if it is a branch or a jump. -/
  | write (rd : Reg) (v target : Word) (even : EvenTarget i s target) (dest : rd = 0 ∨ destReg i = some rd)
      (straight : target = s.pc ∨ i.op ∈ controlOps) : Effect i s ((s.setPc target).setReg rd v)
  /-- A store replaces one backed slot, the one its address lies in. -/
  | store (a v : Word) (backed : s.inRange a = true) (op : i.op ∈ storeOps) (address : storeAddress s i = some a) :
      Effect i s (s.memWrite a v)
  /-- ECALL appends to the console. -/
  | print (bytes : List Byte) (op : i = .ecall)
      (number : s.getReg s.params.sysNumReg = 1#32 ∨ s.getReg s.params.sysNumReg = 4#32) :
      Effect i s (s.print bytes)
  /-- ECALL ends the program. -/
  | exit (op : i = .ecall) (number : s.getReg s.params.sysNumReg = 10#32) : Effect i s s.exit
  /-- An access outside memory faults. -/
  | fault (kind : FaultKind) (a : Word) (cause : FaultCause i s kind) (outside : s.params.memBytes ≤ a.toNat) :
      Effect i s (s.raise kind s.ppc a)

/-- A register write that leaves `pc` alone. -/
theorem effect_setReg {i : Instr} {rd : Reg} (dest : rd = 0 ∨ destReg i = some rd) (s : State) (v : Word) :
    Effect i s (s.setReg rd v) :=
  Effect.write (i := i) (s := s) rd v s.pc (fun _ h _ => h) dest (.inl rfl)

/-- An instruction that changes nothing. -/
theorem effect_none (i : Instr) (s : State) : Effect i s s := by
  simpa using effect_setReg (i := i) (rd := 0) (.inl rfl) s 0#32

theorem effect_load {i : Instr} {rd : Reg} (hop : i.op ∈ loadOps)
    (dest : destReg i = some rd) (f : Word → Word) (rs1 : Reg) (imm : Word) (s : State) :
    Effect i s (loadWith f rd rs1 imm s) := by
  cases h : s.inRange (s.effectiveAddress rs1 imm) with
  | true => rw [loadWith_inRange h]; exact effect_setReg (.inr dest) _ _
  | false =>
    rw [loadWith_outOfRange h]
    exact .fault _ _ (.inl ⟨rfl, hop⟩) (by simpa [State.inRange] using h)

theorem effect_store {i : Instr} {rs1 : Reg} {imm : Word} {s : State} (hop : i.op ∈ storeOps)
    (address : storeAddress s i = some (s.effectiveAddress rs1 imm)) (v : Word) :
    Effect i s (storeValue rs1 imm v s) := by
  cases h : s.inRange (s.effectiveAddress rs1 imm) with
  | true => rw [storeValue_inRange h]; exact .store _ _ h hop address
  | false =>
    rw [storeValue_outOfRange h]
    exact .fault _ _ (.inr (.inl ⟨rfl, hop⟩)) (by simpa [State.inRange] using h)

/-- A sum of even words is even: the carry out of bit 31 is a multiple of 2. -/
theorem add_even {x y : Word} (hx : x.toNat % 2 = 0) (hy : y.toNat % 2 = 0) : (x + y).toNat % 2 = 0 := by
  rw [BitVec.toNat_add]
  omega

/-- A word even as a signed number is even as an unsigned one. -/
theorem toNat_even_of_toInt_even {v : Word} (h : v.toInt % 2 = 0) : v.toNat % 2 = 0 := by
  rw [BitVec.toInt_eq_toNat_cond] at h
  split at h <;> omega

theorem even_of_fitsB {v : Word} (h : fitsB v = true) : v.toInt % 2 = 0 := by
  simp [fitsB] at h
  omega

theorem even_of_fitsJ {v : Word} (h : fitsJ v = true) : v.toInt % 2 = 0 := by
  simp [fitsJ] at h
  omega

theorem effect_branch {i : Instr} {imm : Word} (hop : i.op ∈ controlOps) (hi : i.wf = fitsB imm) (taken : Bool)
    (s : State) : Effect i s (branchIf taken imm s) := by
  cases taken with
  | false => exact effect_none i s
  | true =>
    have : Effect i s ((s.setPc (s.relativeTarget imm)).setReg 0 0#32) :=
      .write 0 0#32 _ (fun hw _ hp => add_even hp (toNat_even_of_toInt_even (even_of_fitsB (hi ▸ hw)))) (.inl rfl)
        (.inr hop)
    simpa [branchIf] using this

theorem effect_printStr (a : Word) (s : State) (hn : s.getReg s.params.sysNumReg = 4#32) :
    Effect .ecall s (printStr a s) := by
  unfold printStr
  split
  · exact .print _ rfl (.inr hn)
  · rename_i hsp
    split
    · exact .print _ rfl (.inr hn)
    · rename_i q h
      have := readString_error rfl h
      exact .fault _ _ (.inr (.inr ⟨rfl, rfl, hn, by simpa using hsp⟩)) (by omega)

/-- Every instruction answers a next state, and its effect is one of `Effect`. -/
theorem exec_effect (i : Instr) (s : State) : ∃ t, exec i s = .next t ∧ Effect i s t := by
  cases i with
  | lui rd imm => exact ⟨_, rfl, effect_setReg (.inr rfl) _ _⟩
  | auipc rd imm => exact ⟨_, rfl, effect_setReg (.inr rfl) _ _⟩
  | lb rd rs1 imm => exact ⟨_, rfl, effect_load (by simp [Instr.op, loadOps]) rfl _ _ _ _⟩
  | lh rd rs1 imm => exact ⟨_, rfl, effect_load (by simp [Instr.op, loadOps]) rfl _ _ _ _⟩
  | lw rd rs1 imm => exact ⟨_, rfl, effect_load (by simp [Instr.op, loadOps]) rfl _ _ _ _⟩
  | lbu rd rs1 imm => exact ⟨_, rfl, effect_load (by simp [Instr.op, loadOps]) rfl _ _ _ _⟩
  | lhu rd rs1 imm => exact ⟨_, rfl, effect_load (by simp [Instr.op, loadOps]) rfl _ _ _ _⟩
  | sb rs1 rs2 imm => exact ⟨_, rfl, effect_store (by simp [Instr.op, storeOps]) rfl _⟩
  | sh rs1 rs2 imm => exact ⟨_, rfl, effect_store (by simp [Instr.op, storeOps]) rfl _⟩
  | sw rs1 rs2 imm => exact ⟨_, rfl, effect_store (by simp [Instr.op, storeOps]) rfl _⟩
  | beq rs1 rs2 imm => exact ⟨_, rfl, effect_branch (by simp [Instr.op, controlOps]) rfl _ _⟩
  | bne rs1 rs2 imm => exact ⟨_, rfl, effect_branch (by simp [Instr.op, controlOps]) rfl _ _⟩
  | blt rs1 rs2 imm => exact ⟨_, rfl, effect_branch (by simp [Instr.op, controlOps]) rfl _ _⟩
  | bge rs1 rs2 imm => exact ⟨_, rfl, effect_branch (by simp [Instr.op, controlOps]) rfl _ _⟩
  | bltu rs1 rs2 imm => exact ⟨_, rfl, effect_branch (by simp [Instr.op, controlOps]) rfl _ _⟩
  | bgeu rs1 rs2 imm => exact ⟨_, rfl, effect_branch (by simp [Instr.op, controlOps]) rfl _ _⟩
  | jal rd imm =>
    exact ⟨_, rfl, .write _ _ _ (fun hw _ hp => add_even hp (toNat_even_of_toInt_even (even_of_fitsJ hw))) (.inr rfl)
      (.inr (by simp [Instr.op, controlOps]))⟩
  | jalr rd rs1 imm =>
    refine ⟨_, rfl, .write _ _ _ (fun _ _ _ => ?_) (.inr rfl) (.inr (by simp [Instr.op, controlOps]))⟩
    rw [jalrTarget_toNat]
    omega
  | add rd rs1 rs2 => exact ⟨_, rfl, effect_setReg (.inr rfl) _ _⟩
  | sub rd rs1 rs2 => exact ⟨_, rfl, effect_setReg (.inr rfl) _ _⟩
  | sll rd rs1 rs2 => exact ⟨_, rfl, effect_setReg (.inr rfl) _ _⟩
  | slt rd rs1 rs2 => exact ⟨_, rfl, effect_setReg (.inr rfl) _ _⟩
  | sltu rd rs1 rs2 => exact ⟨_, rfl, effect_setReg (.inr rfl) _ _⟩
  | xor rd rs1 rs2 => exact ⟨_, rfl, effect_setReg (.inr rfl) _ _⟩
  | srl rd rs1 rs2 => exact ⟨_, rfl, effect_setReg (.inr rfl) _ _⟩
  | sra rd rs1 rs2 => exact ⟨_, rfl, effect_setReg (.inr rfl) _ _⟩
  | or rd rs1 rs2 => exact ⟨_, rfl, effect_setReg (.inr rfl) _ _⟩
  | and rd rs1 rs2 => exact ⟨_, rfl, effect_setReg (.inr rfl) _ _⟩
  | addi rd rs1 imm => exact ⟨_, rfl, effect_setReg (.inr rfl) _ _⟩
  | ori rd rs1 imm => exact ⟨_, rfl, effect_setReg (.inr rfl) _ _⟩
  | slti rd rs1 imm => exact ⟨_, rfl, effect_setReg (.inr rfl) _ _⟩
  | xori rd rs1 imm => exact ⟨_, rfl, effect_setReg (.inr rfl) _ _⟩
  | andi rd rs1 imm => exact ⟨_, rfl, effect_setReg (.inr rfl) _ _⟩
  | sltiu rd rs1 imm => exact ⟨_, rfl, effect_setReg (.inr rfl) _ _⟩
  | slli rd rs1 shamt => exact ⟨_, rfl, effect_setReg (.inr rfl) _ _⟩
  | srli rd rs1 shamt => exact ⟨_, rfl, effect_setReg (.inr rfl) _ _⟩
  | srai rd rs1 shamt => exact ⟨_, rfl, effect_setReg (.inr rfl) _ _⟩
  | ecall =>
    simp only [exec, execEcall]
    split
    · exact ⟨_, rfl, .print _ rfl (.inl ‹_›)⟩
    · split
      · exact ⟨_, rfl, effect_printStr _ _ ‹_›⟩
      · split
        · exact ⟨_, rfl, .exit rfl ‹_›⟩
        · exact ⟨_, rfl, effect_none _ _⟩

end Sys2Proof.Machine
end

