-- ==== Sys2Proof/Laws/PerInstr.lean ====
section
/-! SUPPORT. Statements about every instruction, one lemma per constructor (LAWS.json): the word of an instruction
matches its own row of the opcode table (30_encoding.md R75, R76), whatever its operands. -/

namespace Sys2Proof.Laws.EncodesItsRow

/-- The word of `i` agrees with the row of `i` under its mask. -/
def Statement (i : Instr) : Prop := i.op.matches (encode i) = true

/-! The masks keep the fixed fields of each format and clear its operands. -/

theorem packR_mask (funct7 : BitVec 7) (rs2 rs1 : Reg) (funct3 : BitVec 3) (rd : Reg) (opcode : BitVec 7) :
    packR funct7 rs2 rs1 funct3 rd opcode &&& 0xFE00707F#32 = packR funct7 0 0 funct3 0 opcode := by
  apply BitVec.eq_of_getLsbD_eq
  intro i hi
  unfold packR
  simp only [BitVec.getLsbD_and, BitVec.getLsbD_append]
  interval_cases i <;> simp [regBits]

theorem packI_mask (imm : Word) (rs1 : Reg) (funct3 : BitVec 3) (rd : Reg) (opcode : BitVec 7) :
    packI imm rs1 funct3 rd opcode &&& 0x0000707F#32 = packI 0#32 0 funct3 0 opcode := by
  apply BitVec.eq_of_getLsbD_eq
  intro i hi
  unfold packI
  simp only [BitVec.getLsbD_and, BitVec.getLsbD_append, BitVec.getLsbD_extractLsb']
  interval_cases i <;> simp [regBits]

theorem packShift_mask (funct7 : BitVec 7) (shamt : BitVec 5) (rs1 : Reg) (funct3 : BitVec 3) (rd : Reg) (opcode : BitVec 7) :
    packShift funct7 shamt rs1 funct3 rd opcode &&& 0xFE00707F#32 = packShift funct7 0#5 0 funct3 0 opcode := by
  apply BitVec.eq_of_getLsbD_eq
  intro i hi
  unfold packShift
  simp only [BitVec.getLsbD_and, BitVec.getLsbD_append]
  interval_cases i <;> simp [regBits]

theorem packS_mask (imm : Word) (rs2 rs1 : Reg) (funct3 : BitVec 3) (opcode : BitVec 7) :
    packS imm rs2 rs1 funct3 opcode &&& 0x0000707F#32 = packS 0#32 0 0 funct3 opcode := by
  apply BitVec.eq_of_getLsbD_eq
  intro i hi
  unfold packS
  simp only [BitVec.getLsbD_and, BitVec.getLsbD_append, BitVec.getLsbD_extractLsb']
  interval_cases i <;> simp [regBits]

theorem packB_mask (imm : Word) (rs2 rs1 : Reg) (funct3 : BitVec 3) (opcode : BitVec 7) :
    packB imm rs2 rs1 funct3 opcode &&& 0x0000707F#32 = packB 0#32 0 0 funct3 opcode := by
  apply BitVec.eq_of_getLsbD_eq
  intro i hi
  unfold packB
  simp only [BitVec.getLsbD_and, BitVec.getLsbD_append, BitVec.getLsbD_extractLsb']
  interval_cases i <;> simp [regBits]

theorem packU_mask (imm : Word) (rd : Reg) (opcode : BitVec 7) :
    packU imm rd opcode &&& 0x0000007F#32 = packU 0#32 0 opcode := by
  apply BitVec.eq_of_getLsbD_eq
  intro i hi
  unfold packU
  simp only [BitVec.getLsbD_and, BitVec.getLsbD_append, BitVec.getLsbD_extractLsb']
  interval_cases i <;> simp [regBits]

theorem packJ_mask (imm : Word) (rd : Reg) (opcode : BitVec 7) :
    packJ imm rd opcode &&& 0x0000007F#32 = packJ 0#32 0 opcode := by
  apply BitVec.eq_of_getLsbD_eq
  intro i hi
  unfold packJ
  simp only [BitVec.getLsbD_and, BitVec.getLsbD_append, BitVec.getLsbD_extractLsb']
  interval_cases i <;> simp [regBits]

/-- A masked word that equals the `match` value matches the row. -/
theorem matches_of_mask {o : Op} {w m : Word} (h : w &&& o.maskBits = m) (e : m = o.matchBits) :
    o.matches w = true := by simp [Op.matches, h, e]

theorem lui (rd : Reg) (imm : Word) : Statement (.lui rd imm) :=
  matches_of_mask (packU_mask _ _ _) rfl
theorem auipc (rd : Reg) (imm : Word) : Statement (.auipc rd imm) :=
  matches_of_mask (packU_mask _ _ _) rfl
theorem lb (rd : Reg) (rs1 : Reg) (imm : Word) : Statement (.lb rd rs1 imm) :=
  matches_of_mask (packI_mask _ _ _ _ _) rfl
theorem lh (rd : Reg) (rs1 : Reg) (imm : Word) : Statement (.lh rd rs1 imm) :=
  matches_of_mask (packI_mask _ _ _ _ _) rfl
theorem lw (rd : Reg) (rs1 : Reg) (imm : Word) : Statement (.lw rd rs1 imm) :=
  matches_of_mask (packI_mask _ _ _ _ _) rfl
theorem lbu (rd : Reg) (rs1 : Reg) (imm : Word) : Statement (.lbu rd rs1 imm) :=
  matches_of_mask (packI_mask _ _ _ _ _) rfl
theorem lhu (rd : Reg) (rs1 : Reg) (imm : Word) : Statement (.lhu rd rs1 imm) :=
  matches_of_mask (packI_mask _ _ _ _ _) rfl
theorem sb (rs1 : Reg) (rs2 : Reg) (imm : Word) : Statement (.sb rs1 rs2 imm) :=
  matches_of_mask (packS_mask _ _ _ _ _) rfl
theorem sh (rs1 : Reg) (rs2 : Reg) (imm : Word) : Statement (.sh rs1 rs2 imm) :=
  matches_of_mask (packS_mask _ _ _ _ _) rfl
theorem sw (rs1 : Reg) (rs2 : Reg) (imm : Word) : Statement (.sw rs1 rs2 imm) :=
  matches_of_mask (packS_mask _ _ _ _ _) rfl
theorem beq (rs1 : Reg) (rs2 : Reg) (imm : Word) : Statement (.beq rs1 rs2 imm) :=
  matches_of_mask (packB_mask _ _ _ _ _) rfl
theorem bne (rs1 : Reg) (rs2 : Reg) (imm : Word) : Statement (.bne rs1 rs2 imm) :=
  matches_of_mask (packB_mask _ _ _ _ _) rfl
theorem blt (rs1 : Reg) (rs2 : Reg) (imm : Word) : Statement (.blt rs1 rs2 imm) :=
  matches_of_mask (packB_mask _ _ _ _ _) rfl
theorem bge (rs1 : Reg) (rs2 : Reg) (imm : Word) : Statement (.bge rs1 rs2 imm) :=
  matches_of_mask (packB_mask _ _ _ _ _) rfl
theorem bltu (rs1 : Reg) (rs2 : Reg) (imm : Word) : Statement (.bltu rs1 rs2 imm) :=
  matches_of_mask (packB_mask _ _ _ _ _) rfl
theorem bgeu (rs1 : Reg) (rs2 : Reg) (imm : Word) : Statement (.bgeu rs1 rs2 imm) :=
  matches_of_mask (packB_mask _ _ _ _ _) rfl
theorem jal (rd : Reg) (imm : Word) : Statement (.jal rd imm) :=
  matches_of_mask (packJ_mask _ _ _) rfl
theorem jalr (rd : Reg) (rs1 : Reg) (imm : Word) : Statement (.jalr rd rs1 imm) :=
  matches_of_mask (packI_mask _ _ _ _ _) rfl
theorem add (rd : Reg) (rs1 : Reg) (rs2 : Reg) : Statement (.add rd rs1 rs2) :=
  matches_of_mask (packR_mask _ _ _ _ _ _) rfl
theorem sub (rd : Reg) (rs1 : Reg) (rs2 : Reg) : Statement (.sub rd rs1 rs2) :=
  matches_of_mask (packR_mask _ _ _ _ _ _) rfl
theorem sll (rd : Reg) (rs1 : Reg) (rs2 : Reg) : Statement (.sll rd rs1 rs2) :=
  matches_of_mask (packR_mask _ _ _ _ _ _) rfl
theorem slt (rd : Reg) (rs1 : Reg) (rs2 : Reg) : Statement (.slt rd rs1 rs2) :=
  matches_of_mask (packR_mask _ _ _ _ _ _) rfl
theorem sltu (rd : Reg) (rs1 : Reg) (rs2 : Reg) : Statement (.sltu rd rs1 rs2) :=
  matches_of_mask (packR_mask _ _ _ _ _ _) rfl
theorem xor (rd : Reg) (rs1 : Reg) (rs2 : Reg) : Statement (.xor rd rs1 rs2) :=
  matches_of_mask (packR_mask _ _ _ _ _ _) rfl
theorem srl (rd : Reg) (rs1 : Reg) (rs2 : Reg) : Statement (.srl rd rs1 rs2) :=
  matches_of_mask (packR_mask _ _ _ _ _ _) rfl
theorem sra (rd : Reg) (rs1 : Reg) (rs2 : Reg) : Statement (.sra rd rs1 rs2) :=
  matches_of_mask (packR_mask _ _ _ _ _ _) rfl
theorem or (rd : Reg) (rs1 : Reg) (rs2 : Reg) : Statement (.or rd rs1 rs2) :=
  matches_of_mask (packR_mask _ _ _ _ _ _) rfl
theorem and (rd : Reg) (rs1 : Reg) (rs2 : Reg) : Statement (.and rd rs1 rs2) :=
  matches_of_mask (packR_mask _ _ _ _ _ _) rfl
theorem addi (rd : Reg) (rs1 : Reg) (imm : Word) : Statement (.addi rd rs1 imm) :=
  matches_of_mask (packI_mask _ _ _ _ _) rfl
theorem ori (rd : Reg) (rs1 : Reg) (imm : Word) : Statement (.ori rd rs1 imm) :=
  matches_of_mask (packI_mask _ _ _ _ _) rfl
theorem slti (rd : Reg) (rs1 : Reg) (imm : Word) : Statement (.slti rd rs1 imm) :=
  matches_of_mask (packI_mask _ _ _ _ _) rfl
theorem xori (rd : Reg) (rs1 : Reg) (imm : Word) : Statement (.xori rd rs1 imm) :=
  matches_of_mask (packI_mask _ _ _ _ _) rfl
theorem andi (rd : Reg) (rs1 : Reg) (imm : Word) : Statement (.andi rd rs1 imm) :=
  matches_of_mask (packI_mask _ _ _ _ _) rfl
theorem sltiu (rd : Reg) (rs1 : Reg) (imm : Word) : Statement (.sltiu rd rs1 imm) :=
  matches_of_mask (packI_mask _ _ _ _ _) rfl
theorem slli (rd : Reg) (rs1 : Reg) (shamt : BitVec 5) : Statement (.slli rd rs1 shamt) :=
  matches_of_mask (packShift_mask _ _ _ _ _ _) rfl
theorem srli (rd : Reg) (rs1 : Reg) (shamt : BitVec 5) : Statement (.srli rd rs1 shamt) :=
  matches_of_mask (packShift_mask _ _ _ _ _ _) rfl
theorem srai (rd : Reg) (rs1 : Reg) (shamt : BitVec 5) : Statement (.srai rd rs1 shamt) :=
  matches_of_mask (packShift_mask _ _ _ _ _ _) rfl
theorem ecall : Statement .ecall := rfl

end Sys2Proof.Laws.EncodesItsRow
end

