-- ==== Sys2Proof/Laws/Step.lean ====
section
/-! SUPPORT. What a step can do, said once: halted, a fetch fault, a decode gap, or an instruction. -/

namespace Sys2Proof.Machine

theorem step_halted {s : State} (h : s.halt ≠ .none) : step s = .next s := by simp [step, h]

theorem step_unfetchable {s : State} (h : s.halt = .none) (hf : s.fetchable = false) :
    step s = .next s.fetchFault := by simp [step, h, hf]

theorem step_gap {s : State} {g : Gap} (h : s.halt = .none) (hf : s.fetchable = true)
    (hd : decodeWord s.fetchWord = .error g) : step s = .next s.fetched.decodeGap := by
  simp [step, h, hf, hd]

theorem step_instr {s : State} {i : Instr} (h : s.halt = .none) (hf : s.fetchable = true)
    (hd : decodeWord s.fetchWord = .ok i) : step s = exec i s.fetched := by
  simp [step, h, hf, hd]

/-- The four things a step can be (R90 to R94). -/
inductive StepCase (s : State) : State → Prop where
  | halted (stopped : s.halt ≠ .none) : StepCase s s
  | unfetchable (running : s.halt = .none) (bad : s.fetchable = false) : StepCase s s.fetchFault
  | gap (g : Gap) (running : s.halt = .none) (good : s.fetchable = true)
      (word : decodeWord s.fetchWord = .error g) : StepCase s s.fetched.decodeGap
  | instr (i : Instr) (t : State) (running : s.halt = .none) (good : s.fetchable = true)
      (word : decodeWord s.fetchWord = .ok i) (effect : Effect i s.fetched t) : StepCase s t

/-- Every step answers a next state, and is one of the four cases. -/
theorem step_cases (s : State) : ∃ t, step s = .next t ∧ StepCase s t := by
  by_cases h : s.halt = .none
  · cases hf : s.fetchable with
    | false => exact ⟨_, step_unfetchable h hf, .unfetchable h hf⟩
    | true =>
      cases hd : decodeWord s.fetchWord with
      | error g => exact ⟨_, step_gap h hf hd, .gap g h hf hd⟩
      | ok i =>
        obtain ⟨t, ht, he⟩ := exec_effect i s.fetched
        exact ⟨t, (step_instr h hf hd).trans ht, .instr i t h hf hd he⟩
  · exact ⟨s, step_halted h, .halted h⟩

/-- The state a step leaves, by the same cases. -/
theorem stepState_cases (s : State) : step s = .next (stepState s) ∧ StepCase s (stepState s) := by
  obtain ⟨t, ht, hc⟩ := step_cases s
  have : stepState s = t := by simp [stepState, ht]
  rw [this]
  exact ⟨ht, hc⟩

/-- `stepState` is the state `step` answers. -/
theorem step_eq_next (s : State) : step s = .next (stepState s) := (stepState_cases s).1

end Sys2Proof.Machine
end

