-- ==== Sys2Proof/Machine/Assembler.lean ====
section
/-! DEFINITION. The assembler's view of the instructions (10_state.md R20 names; 30_encoding.md R82 operand forms,
R83 pseudo-instructions): data about the words, no part of the block. Every form here is PRESUMED by the spec itself
(93_implementation_defined.md G5, G6; log 21). -/

namespace Sys2Proof.Machine

/-- The ABI name of a register (R20), PRESUMED by the spec itself. R20 gives `x8` two names, `s0` and `fp`, and prefers
neither; answering `s0` alone is a DESIGN CHOICE, safe: the names have no effect on any rule (log 21). -/
def abiName (r : Reg) : String :=
  match r.val with
  | 0 => "zero" | 1 => "ra" | 2 => "sp" | 3 => "gp" | 4 => "tp"
  | 5 => "t0" | 6 => "t1" | 7 => "t2"
  | 8 => "s0" | 9 => "s1"
  | 10 => "a0" | 11 => "a1" | 12 => "a2" | 13 => "a3" | 14 => "a4" | 15 => "a5" | 16 => "a6" | 17 => "a7"
  | 18 => "s2" | 19 => "s3" | 20 => "s4" | 21 => "s5" | 22 => "s6" | 23 => "s7" | 24 => "s8" | 25 => "s9"
  | 26 => "s10" | 27 => "s11"
  | 28 => "t3" | 29 => "t4" | 30 => "t5" | _ => "t6"

/-- An operand as the assembler writes it (R82). -/
inductive AsmOperand where
  /-- `x0` to `x31`. -/
  | reg (r : Reg)
  /-- A signed number: an immediate, a shift amount, or an offset in bytes from the instruction's own address. -/
  | imm (value : Int)
  /-- `imm(rs1)`. -/
  | mem (offset : Int) (base : Reg)
  deriving DecidableEq, Repr

/-- The operands of an instruction in assembler order (R82); the mnemonic is `Instr.op`. -/
def asmOperands : Instr → List AsmOperand
  | .lui rd imm => [.reg rd, .imm (imm.toNat / 4096)]
  | .auipc rd imm => [.reg rd, .imm (imm.toNat / 4096)]
  | .lb rd rs1 imm => [.reg rd, .mem imm.toInt rs1]
  | .lh rd rs1 imm => [.reg rd, .mem imm.toInt rs1]
  | .lw rd rs1 imm => [.reg rd, .mem imm.toInt rs1]
  | .lbu rd rs1 imm => [.reg rd, .mem imm.toInt rs1]
  | .lhu rd rs1 imm => [.reg rd, .mem imm.toInt rs1]
  | .sb rs1 rs2 imm => [.reg rs2, .mem imm.toInt rs1]
  | .sh rs1 rs2 imm => [.reg rs2, .mem imm.toInt rs1]
  | .sw rs1 rs2 imm => [.reg rs2, .mem imm.toInt rs1]
  | .beq rs1 rs2 imm => [.reg rs1, .reg rs2, .imm imm.toInt]
  | .bne rs1 rs2 imm => [.reg rs1, .reg rs2, .imm imm.toInt]
  | .blt rs1 rs2 imm => [.reg rs1, .reg rs2, .imm imm.toInt]
  | .bge rs1 rs2 imm => [.reg rs1, .reg rs2, .imm imm.toInt]
  | .bltu rs1 rs2 imm => [.reg rs1, .reg rs2, .imm imm.toInt]
  | .bgeu rs1 rs2 imm => [.reg rs1, .reg rs2, .imm imm.toInt]
  | .jal rd imm => [.reg rd, .imm imm.toInt]
  | .jalr rd rs1 imm => [.reg rd, .mem imm.toInt rs1]
  | .add rd rs1 rs2 => [.reg rd, .reg rs1, .reg rs2]
  | .sub rd rs1 rs2 => [.reg rd, .reg rs1, .reg rs2]
  | .sll rd rs1 rs2 => [.reg rd, .reg rs1, .reg rs2]
  | .slt rd rs1 rs2 => [.reg rd, .reg rs1, .reg rs2]
  | .sltu rd rs1 rs2 => [.reg rd, .reg rs1, .reg rs2]
  | .xor rd rs1 rs2 => [.reg rd, .reg rs1, .reg rs2]
  | .srl rd rs1 rs2 => [.reg rd, .reg rs1, .reg rs2]
  | .sra rd rs1 rs2 => [.reg rd, .reg rs1, .reg rs2]
  | .or rd rs1 rs2 => [.reg rd, .reg rs1, .reg rs2]
  | .and rd rs1 rs2 => [.reg rd, .reg rs1, .reg rs2]
  | .addi rd rs1 imm => [.reg rd, .reg rs1, .imm imm.toInt]
  | .ori rd rs1 imm => [.reg rd, .reg rs1, .imm imm.toInt]
  | .slti rd rs1 imm => [.reg rd, .reg rs1, .imm imm.toInt]
  | .xori rd rs1 imm => [.reg rd, .reg rs1, .imm imm.toInt]
  | .andi rd rs1 imm => [.reg rd, .reg rs1, .imm imm.toInt]
  | .sltiu rd rs1 imm => [.reg rd, .reg rs1, .imm imm.toInt]
  | .slli rd rs1 shamt => [.reg rd, .reg rs1, .imm shamt.toNat]
  | .srli rd rs1 shamt => [.reg rd, .reg rs1, .imm shamt.toNat]
  | .srai rd rs1 shamt => [.reg rd, .reg rs1, .imm shamt.toNat]
  | .ecall => []

/-- The pseudo-instructions (R83). An offset is in bytes from the first expanded instruction's address; `la` takes
its symbol as such an offset. -/
inductive Pseudo where
  | nop
  | li (rd : Reg) (imm : Word)
  | la (rd : Reg) (off : Word)
  | mv (rd rs : Reg)
  | not (rd rs : Reg)
  | neg (rd rs : Reg)
  | seqz (rd rs : Reg)
  | snez (rd rs : Reg)
  | sltz (rd rs : Reg)
  | sgtz (rd rs : Reg)
  | beqz (rs : Reg) (off : Word)
  | bnez (rs : Reg) (off : Word)
  | blez (rs : Reg) (off : Word)
  | bgez (rs : Reg) (off : Word)
  | bltz (rs : Reg) (off : Word)
  | bgtz (rs : Reg) (off : Word)
  | bgt (rs rt : Reg) (off : Word)
  | ble (rs rt : Reg) (off : Word)
  | bgtu (rs rt : Reg) (off : Word)
  | bleu (rs rt : Reg) (off : Word)
  | j (off : Word)
  | jalLink (off : Word)
  | jr (rs : Reg)
  | jalrLink (rs : Reg)
  | ret
  | call (off : Word)
  | tail (off : Word)
  deriving DecidableEq, Repr

/-- `lo12 = sext_12(v[11:0])` (R83). -/
def lo12 (v : Word) : Word := sext 12 v

/-- `hi20 = (v − lo12)[31:12]`, as the upper immediate it becomes (R83). -/
def hi20 (v : Word) : Word := immU (v - lo12 v)

/-- The expansion of a pseudo-instruction (R83). -/
def Pseudo.expand : Pseudo → List Instr
  | .nop => [.addi 0 0 0#32]
  | .li rd imm =>
    if -2048 ≤ imm.toInt ∧ imm.toInt ≤ 2047 then [.addi rd 0 imm]
    else [.lui rd (hi20 imm), .addi rd rd (lo12 imm)]
  | .la rd off => [.auipc rd (hi20 off), .addi rd rd (lo12 off)]
  | .mv rd rs => [.addi rd rs 0#32]
  | .not rd rs => [.xori rd rs (-1#32)]
  | .neg rd rs => [.sub rd 0 rs]
  | .seqz rd rs => [.sltiu rd rs 1#32]
  | .snez rd rs => [.sltu rd 0 rs]
  | .sltz rd rs => [.slt rd rs 0]
  | .sgtz rd rs => [.slt rd 0 rs]
  | .beqz rs off => [.beq rs 0 off]
  | .bnez rs off => [.bne rs 0 off]
  | .blez rs off => [.bge 0 rs off]
  | .bgez rs off => [.bge rs 0 off]
  | .bltz rs off => [.blt rs 0 off]
  | .bgtz rs off => [.blt 0 rs off]
  | .bgt rs rt off => [.blt rt rs off]
  | .ble rs rt off => [.bge rt rs off]
  | .bgtu rs rt off => [.bltu rt rs off]
  | .bleu rs rt off => [.bgeu rt rs off]
  | .j off => [.jal 0 off]
  | .jalLink off => [.jal 1 off]
  | .jr rs => [.jalr 0 rs 0#32]
  | .jalrLink rs => [.jalr 1 rs 0#32]
  | .ret => [.jalr 0 1 0#32]
  | .call off => [.auipc 1 (hi20 off), .jalr 1 1 (lo12 off)]
  | .tail off => [.auipc 6 (hi20 off), .jalr 0 6 (lo12 off)]

end Sys2Proof.Machine
end

