-- ==== Sys2Proof/Tests/Slice0.lean ====
section
/-! SUPPORT. Tests, and for each obligation with hypotheses a concrete state that meets them. Every expected value
comes from the spec: the encodings of 30_encoding.md, or the rows of 95_test_vectors.md. -/

namespace Sys2Proof.Tests

open Sys2Proof.Machine

/-! ## Helpers -/

/-- `s` with one slot written. -/
def poke (s : State) (j : Nat) (v : Word) : State := { s with mem := s.mem.writeSlot j v }

/-- A running state with a word at `pc`, and registers and slots preset. -/
def place (pc word : Word) (regs : List (Reg × Word)) (slots : List (Nat × Word)) (p : Params) : State :=
  let s : State := { State.launch p [] with pc := pc, started := true }
  let s := slots.foldl (fun s c => poke s c.1 c.2) s
  (regs.foldl (fun s c => s.setReg c.1 c.2) s).memWrite pc word

/-- One step from `s` has this outcome and leaves exactly this state. -/
abbrev runs (s : State) (o : StepOutcome) (edit : State → State) : Prop := stepOutcome s = o ∧ stepState s = edit s

/-- The word decodes to the instruction, the instruction is well-formed, and it encodes to the word. -/
abbrev bothWays (w : Word) (i : Instr) : Prop := decodeWord w = .ok i ∧ i.wf = true ∧ encode i = w

/-- The slots of the load vectors (95_test_vectors.md section 3.2). -/
def loadSlots : List (Nat × Word) := [(0x800, 0x12345680#32), (0x801, 0x8000FF7F#32)]

/-! ## WellFormed: each check refuses an ill-formed term and admits the ends of its range (R63 to R68) -/

theorem test_wf_refuses_twelve_bits : Instr.wf (.addi 1 2 2048#32) = false ∧ Instr.wf (.sw 1 2 (-2049#32)) = false ∧
    Instr.wf (.jalr 1 2 2047#32) = true ∧ Instr.wf (.lb 1 2 (-2048#32)) = true := by decide

theorem test_wf_refuses_branch_offset : Instr.wf (.beq 1 2 4096#32) = false ∧ Instr.wf (.bne 1 2 (-4098#32)) = false ∧
    Instr.wf (.blt 1 2 3#32) = false ∧ Instr.wf (.bge 1 2 4094#32) = true ∧ Instr.wf (.bgeu 1 2 (-4096#32)) = true := by
  decide

theorem test_wf_refuses_upper_immediate : Instr.wf (.lui 1 0x12345001#32) = false ∧ Instr.wf (.auipc 1 0x800#32) = false ∧
    Instr.wf (.lui 1 0xFFFFF000#32) = true := by decide

theorem test_wf_refuses_jump_offset : Instr.wf (.jal 1 1048576#32) = false ∧ Instr.wf (.jal 1 (-1048578#32)) = false ∧
    Instr.wf (.jal 1 5#32) = false ∧ Instr.wf (.jal 1 1048574#32) = true ∧ Instr.wf (.jal 1 (-1048576#32)) = true := by
  decide

/-! ## Decode: a word of every constructor, written field by field from the spec's layouts -/

/-- U layout: `imm[31:12] rd opcode` (R62, R66, R71). -/
theorem test_decode_upper :
    bothWays (0b10000000000000000001#20 ++ 0b01010#5 ++ 0b0110111#7 : Word) (.lui 10 0x80001000#32) ∧
    bothWays (0b10000000000000000001#20 ++ 0b01010#5 ++ 0b0010111#7 : Word) (.auipc 10 0x80001000#32) := by decide

/-- I layout: `imm[11:0] rs1 funct3 rd opcode` (R62, R63, R72); the immediate is −2048 + 5. -/
theorem test_decode_loads :
    bothWays (0b100000000101#12 ++ 0b00101#5 ++ 0b000#3 ++ 0b01010#5 ++ 0b0000011#7 : Word) (.lb 10 5 (-2043#32)) ∧
    bothWays (0b100000000101#12 ++ 0b00101#5 ++ 0b001#3 ++ 0b01010#5 ++ 0b0000011#7 : Word) (.lh 10 5 (-2043#32)) ∧
    bothWays (0b100000000101#12 ++ 0b00101#5 ++ 0b010#3 ++ 0b01010#5 ++ 0b0000011#7 : Word) (.lw 10 5 (-2043#32)) ∧
    bothWays (0b100000000101#12 ++ 0b00101#5 ++ 0b100#3 ++ 0b01010#5 ++ 0b0000011#7 : Word) (.lbu 10 5 (-2043#32)) ∧
    bothWays (0b100000000101#12 ++ 0b00101#5 ++ 0b101#3 ++ 0b01010#5 ++ 0b0000011#7 : Word) (.lhu 10 5 (-2043#32)) := by decide

/-- S layout: `imm[11:5] rs2 rs1 funct3 imm[4:0] opcode` (R62, R64, R72); the immediate is −2048 + 3. -/
theorem test_decode_stores :
    bothWays (0b1000000#7 ++ 0b00110#5 ++ 0b00101#5 ++ 0b000#3 ++ 0b00011#5 ++ 0b0100011#7 : Word) (.sb 5 6 (-2045#32)) ∧
    bothWays (0b1000000#7 ++ 0b00110#5 ++ 0b00101#5 ++ 0b001#3 ++ 0b00011#5 ++ 0b0100011#7 : Word) (.sh 5 6 (-2045#32)) ∧
    bothWays (0b1000000#7 ++ 0b00110#5 ++ 0b00101#5 ++ 0b010#3 ++ 0b00011#5 ++ 0b0100011#7 : Word) (.sw 5 6 (-2045#32)) := by decide

/-- B layout: `imm[12] imm[10:5] rs2 rs1 funct3 imm[4:1] imm[11] opcode` (R62, R65, R72); the offset is
−4096 + 32 + 4. -/
theorem test_decode_branches :
    bothWays (0b1#1 ++ 0b000001#6 ++ 0b00110#5 ++ 0b00101#5 ++ 0b000#3 ++ 0b0010#4 ++ 0b0#1 ++ 0b1100011#7 : Word) (.beq 5 6 (-4060#32)) ∧
    bothWays (0b1#1 ++ 0b000001#6 ++ 0b00110#5 ++ 0b00101#5 ++ 0b001#3 ++ 0b0010#4 ++ 0b0#1 ++ 0b1100011#7 : Word) (.bne 5 6 (-4060#32)) ∧
    bothWays (0b1#1 ++ 0b000001#6 ++ 0b00110#5 ++ 0b00101#5 ++ 0b100#3 ++ 0b0010#4 ++ 0b0#1 ++ 0b1100011#7 : Word) (.blt 5 6 (-4060#32)) ∧
    bothWays (0b1#1 ++ 0b000001#6 ++ 0b00110#5 ++ 0b00101#5 ++ 0b101#3 ++ 0b0010#4 ++ 0b0#1 ++ 0b1100011#7 : Word) (.bge 5 6 (-4060#32)) ∧
    bothWays (0b1#1 ++ 0b000001#6 ++ 0b00110#5 ++ 0b00101#5 ++ 0b110#3 ++ 0b0010#4 ++ 0b0#1 ++ 0b1100011#7 : Word) (.bltu 5 6 (-4060#32)) ∧
    bothWays (0b1#1 ++ 0b000001#6 ++ 0b00110#5 ++ 0b00101#5 ++ 0b111#3 ++ 0b0010#4 ++ 0b0#1 ++ 0b1100011#7 : Word) (.bgeu 5 6 (-4060#32)) := by decide

/-- J layout: `imm[20] imm[10:1] imm[11] imm[19:12] rd opcode` (R62, R67); the offset is 4 + 2048 + 4096. -/
theorem test_decode_jumps :
    bothWays (0b0#1 ++ 0b0000000010#10 ++ 0b1#1 ++ 0b00000001#8 ++ 0b01010#5 ++ 0b1101111#7 : Word) (.jal 10 6148#32) ∧
    bothWays (0b100000000101#12 ++ 0b00101#5 ++ 0b000#3 ++ 0b01010#5 ++ 0b1100111#7 : Word) (.jalr 10 5 (-2043#32)) := by decide

/-- R layout: `funct7 rs2 rs1 funct3 rd opcode` (R62, R72, R73). -/
theorem test_decode_register_register :
    bothWays (0b0000000#7 ++ 0b00110#5 ++ 0b00101#5 ++ 0b000#3 ++ 0b01010#5 ++ 0b0110011#7 : Word) (.add 10 5 6) ∧
    bothWays (0b0100000#7 ++ 0b00110#5 ++ 0b00101#5 ++ 0b000#3 ++ 0b01010#5 ++ 0b0110011#7 : Word) (.sub 10 5 6) ∧
    bothWays (0b0000000#7 ++ 0b00110#5 ++ 0b00101#5 ++ 0b001#3 ++ 0b01010#5 ++ 0b0110011#7 : Word) (.sll 10 5 6) ∧
    bothWays (0b0000000#7 ++ 0b00110#5 ++ 0b00101#5 ++ 0b010#3 ++ 0b01010#5 ++ 0b0110011#7 : Word) (.slt 10 5 6) ∧
    bothWays (0b0000000#7 ++ 0b00110#5 ++ 0b00101#5 ++ 0b011#3 ++ 0b01010#5 ++ 0b0110011#7 : Word) (.sltu 10 5 6) ∧
    bothWays (0b0000000#7 ++ 0b00110#5 ++ 0b00101#5 ++ 0b100#3 ++ 0b01010#5 ++ 0b0110011#7 : Word) (.xor 10 5 6) ∧
    bothWays (0b0000000#7 ++ 0b00110#5 ++ 0b00101#5 ++ 0b101#3 ++ 0b01010#5 ++ 0b0110011#7 : Word) (.srl 10 5 6) ∧
    bothWays (0b0100000#7 ++ 0b00110#5 ++ 0b00101#5 ++ 0b101#3 ++ 0b01010#5 ++ 0b0110011#7 : Word) (.sra 10 5 6) ∧
    bothWays (0b0000000#7 ++ 0b00110#5 ++ 0b00101#5 ++ 0b110#3 ++ 0b01010#5 ++ 0b0110011#7 : Word) (.or 10 5 6) ∧
    bothWays (0b0000000#7 ++ 0b00110#5 ++ 0b00101#5 ++ 0b111#3 ++ 0b01010#5 ++ 0b0110011#7 : Word) (.and 10 5 6) := by decide

/-- I layout, opcode OP-IMM (R62, R72). -/
theorem test_decode_register_immediate :
    bothWays (0b100000000101#12 ++ 0b00101#5 ++ 0b000#3 ++ 0b01010#5 ++ 0b0010011#7 : Word) (.addi 10 5 (-2043#32)) ∧
    bothWays (0b100000000101#12 ++ 0b00101#5 ++ 0b110#3 ++ 0b01010#5 ++ 0b0010011#7 : Word) (.ori 10 5 (-2043#32)) ∧
    bothWays (0b100000000101#12 ++ 0b00101#5 ++ 0b010#3 ++ 0b01010#5 ++ 0b0010011#7 : Word) (.slti 10 5 (-2043#32)) ∧
    bothWays (0b100000000101#12 ++ 0b00101#5 ++ 0b100#3 ++ 0b01010#5 ++ 0b0010011#7 : Word) (.xori 10 5 (-2043#32)) ∧
    bothWays (0b100000000101#12 ++ 0b00101#5 ++ 0b111#3 ++ 0b01010#5 ++ 0b0010011#7 : Word) (.andi 10 5 (-2043#32)) ∧
    bothWays (0b100000000101#12 ++ 0b00101#5 ++ 0b011#3 ++ 0b01010#5 ++ 0b0010011#7 : Word) (.sltiu 10 5 (-2043#32)) := by decide

/-- Shift layout: `funct7 shamt rs1 funct3 rd opcode` (R62, R70, R73). -/
theorem test_decode_immediate_shifts :
    bothWays (0b0000000#7 ++ 0b11101#5 ++ 0b00101#5 ++ 0b001#3 ++ 0b01010#5 ++ 0b0010011#7 : Word) (.slli 10 5 29#5) ∧
    bothWays (0b0000000#7 ++ 0b11101#5 ++ 0b00101#5 ++ 0b101#3 ++ 0b01010#5 ++ 0b0010011#7 : Word) (.srli 10 5 29#5) ∧
    bothWays (0b0100000#7 ++ 0b11101#5 ++ 0b00101#5 ++ 0b101#3 ++ 0b01010#5 ++ 0b0010011#7 : Word) (.srai 10 5 29#5) := by decide

/-- ECALL is one word (R74). -/
theorem test_decode_system :
    bothWays (0b000000000000#12 ++ 0b00000#5 ++ 0b000#3 ++ 0b00000#5 ++ 0b1110011#7 : Word) (.ecall) := by decide

/-- The gaps of R78 and section 3.8, each with the level of the dispatch tree that refuses it. -/
theorem test_decode_gaps :
    decodeWord 0x00000000#32 = .error .opcode ∧ decodeWord 0xFFFFFFFF#32 = .error .opcode ∧
    decodeWord 0x0000000B#32 = .error .opcode ∧ decodeWord 0x02628533#32 = .error .funct7 ∧
    decodeWord 0xC062D533#32 = .error .funct7 ∧ decodeWord 0x4062F533#32 = .error .funct7 ∧
    decodeWord 0x02429513#32 = .error .funct7 ∧ decodeWord 0x0242D513#32 = .error .funct7 ∧
    decodeWord 0x000290E7#32 = .error .funct3 ∧ decodeWord 0x00343503#32 = .error .funct3 ∧
    decodeWord 0x00943023#32 = .error .funct3 ∧ decodeWord 0x00002063#32 = .error .funct3 ∧
    decodeWord 0x000000F3#32 = .error .system ∧ decodeWord 0xC0002573#32 = .error .system ∧
    decodeWord 0x30200073#32 = .error .system := by decide

/-- The five extractors on one word (section 2). -/
theorem test_immediate_extractors :
    immI 0x12345037#32 = 0x00000123#32 ∧ immS 0x12345037#32 = 0x00000120#32 ∧ immB 0x000000E3#32 = 0x00000800#32 ∧
    immU 0x12345037#32 = 0x12345000#32 ∧ immJ 0x12345037#32 = 0x00045922#32 ∧ immJ 0x0010006F#32 = 0x00000800#32 := by
  decide

/-- Bytes in memory order are little-endian (R48), and a short byte sequence is no instruction (R60). -/
theorem test_decode_bytes :
    decodeBytes [0x93#8, 0x02#8, 0xA0#8, 0x00#8, 0xFF#8] = .ok (.addi 5 0 10#32, [0xFF#8]) ∧
    decodeBytes [0x93#8, 0x02#8, 0xA0#8] = .error .truncated ∧
    encodeBytes (.addi 5 0 10#32) = [0x93#8, 0x02#8, 0xA0#8, 0x00#8] := by decide

/-! ## Upper immediates (95_test_vectors.md section 3.1) -/

/-- `lui x5, 0xFFFFF` (R110). -/
theorem test_lui_fills_upper_twenty_bits :
    runs (place 0x100#32 0xFFFFF2B7#32 [] [] .default) .ok
      (fun s => { (s.setReg 5 0xFFFFF000#32) with pc := 0x104#32, ppc := 0x100#32 }) := by decide

/-- `lui x0, 0x12345` (R110). -/
theorem test_lui_to_x0_writes_nothing :
    runs (place 0x100#32 0x12345037#32 [] [] .default) .ok
      (fun s => { (s.setReg 0 0x00000000#32) with pc := 0x104#32, ppc := 0x100#32 }) := by decide

/-- `auipc x5, 0xFFFFF` (R111). -/
theorem test_auipc_wraps :
    runs (place 0x100#32 0xFFFFF297#32 [] [] .default) .ok
      (fun s => { (s.setReg 5 0xFFFFF100#32) with pc := 0x104#32, ppc := 0x100#32 }) := by decide

/-- `auipc x5, 0x80000` (R111). -/
theorem test_auipc_at_last_word :
    runs (place 0x3FFC#32 0x80000297#32 [] [] .default) .ok
      (fun s => { (s.setReg 5 0x80003FFC#32) with pc := 0x4000#32, ppc := 0x3FFC#32 }) := by decide

/-! ## Loads (section 3.2) -/

/-- `lb x10, 1(x8)` (R116). -/
theorem test_lb_ignores_low_address_bits :
    runs (place 0x100#32 0x00140503#32 [(8, 0x00002000#32)] loadSlots .default) .ok
      (fun s => { (s.setReg 10 0xFFFFFF80#32) with pc := 0x104#32, ppc := 0x100#32 }) := by decide

/-- `lbu x10, 3(x8)` (R119). -/
theorem test_lbu_zero_extends :
    runs (place 0x100#32 0x00344503#32 [(8, 0x00002000#32)] loadSlots .default) .ok
      (fun s => { (s.setReg 10 0x00000080#32) with pc := 0x104#32, ppc := 0x100#32 }) := by decide

/-- `lh x10, 2(x8)` (R117). -/
theorem test_lh_ignores_low_address_bits :
    runs (place 0x100#32 0x00241503#32 [(8, 0x00002000#32)] loadSlots .default) .ok
      (fun s => { (s.setReg 10 0x00005680#32) with pc := 0x104#32, ppc := 0x100#32 }) := by decide

/-- `lh x10, 4(x8)` (R117). -/
theorem test_lh_sign_extends :
    runs (place 0x100#32 0x00441503#32 [(8, 0x00002000#32)] loadSlots .default) .ok
      (fun s => { (s.setReg 10 0xFFFFFF7F#32) with pc := 0x104#32, ppc := 0x100#32 }) := by decide

/-- `lhu x10, 6(x8)` (R120). -/
theorem test_lhu_ignores_low_address_bits :
    runs (place 0x100#32 0x00645503#32 [(8, 0x00002000#32)] loadSlots .default) .ok
      (fun s => { (s.setReg 10 0x0000FF7F#32) with pc := 0x104#32, ppc := 0x100#32 }) := by decide

/-- `lhu x10, 0(x8)` (R120). -/
theorem test_lhu_reads_low_half :
    runs (place 0x100#32 0x00045503#32 [(8, 0x00002000#32)] loadSlots .default) .ok
      (fun s => { (s.setReg 10 0x00005680#32) with pc := 0x104#32, ppc := 0x100#32 }) := by decide

/-- `lw x8, 0(x8)` (R118). -/
theorem test_lw_base_is_destination :
    runs (place 0x100#32 0x00042403#32 [(8, 0x00002000#32)] loadSlots .default) .ok
      (fun s => { (s.setReg 8 0x12345680#32) with pc := 0x104#32, ppc := 0x100#32 }) := by decide

/-- `lw x10, -4(x8)` (R118). -/
theorem test_lw_below_zero_faults :
    runs (place 0x100#32 0xFFC42503#32 [(8, 0x00000000#32)] [] .default)
      (.fault (some ⟨.load, 0x100#32, 0xFFFFFFFC#32⟩))
      (fun s => { s with
          pc := 0x104#32, ppc := 0x100#32,
          halt := .fault, fault := some ⟨.load, 0x100#32, 0xFFFFFFFC#32⟩ }) := by decide

/-- `lb x0, 1(x8)` (R116). -/
theorem test_lb_to_x0_writes_nothing :
    runs (place 0x100#32 0x00140003#32 [(8, 0x00002000#32)] loadSlots .default) .ok
      (fun s => { (s.setReg 0 0x00000000#32) with pc := 0x104#32, ppc := 0x100#32 }) := by decide

/-- `lbu x0, 0(x8)` (R119). -/
theorem test_lbu_to_x0_still_faults :
    runs (place 0x100#32 0x00044003#32 [(8, 0x00004000#32)] [] .default)
      (.fault (some ⟨.load, 0x100#32, 0x00004000#32⟩))
      (fun s => { s with
          pc := 0x104#32, ppc := 0x100#32,
          halt := .fault, fault := some ⟨.load, 0x100#32, 0x00004000#32⟩ }) := by decide

/-! ## Stores (section 3.3) -/

/-- `sb x9, 1(x8) [FULL_WORD]` (R123). -/
theorem test_sb_writes_whole_slot :
    runs (place 0x100#32 0x009400A3#32 [(8, 0x00002000#32), (9, 0xCAFEBABE#32)] [(0x800, 0x11111111#32)] .default) .ok
      (fun s => { (poke s 0x800 0xCAFEBABE#32) with pc := 0x104#32, ppc := 0x100#32 }) := by decide

/-- `sb x9, 1(x8) [MASKED_WORD]` (R123). -/
theorem test_sb_masked :
    runs (place 0x100#32 0x009400A3#32 [(8, 0x00002000#32), (9, 0xCAFEBABE#32)] [(0x800, 0x11111111#32)]
      { Params.default with narrowStore := .maskedWord }) .ok
      (fun s => { (poke s 0x800 0x000000BE#32) with pc := 0x104#32, ppc := 0x100#32 }) := by decide

/-- `sh x9, 2(x8) [FULL_WORD]` (R124). -/
theorem test_sh_writes_whole_slot :
    runs (place 0x100#32 0x00941123#32 [(8, 0x00002000#32), (9, 0xCAFEBABE#32)] [(0x800, 0x11111111#32)] .default) .ok
      (fun s => { (poke s 0x800 0xCAFEBABE#32) with pc := 0x104#32, ppc := 0x100#32 }) := by decide

/-- `sh x9, 2(x8) [MASKED_WORD]` (R124). -/
theorem test_sh_masked :
    runs (place 0x100#32 0x00941123#32 [(8, 0x00002000#32), (9, 0xCAFEBABE#32)] [(0x800, 0x11111111#32)]
      { Params.default with narrowStore := .maskedWord }) .ok
      (fun s => { (poke s 0x800 0x0000BABE#32) with pc := 0x104#32, ppc := 0x100#32 }) := by decide

/-- `sw x8, 0(x8)` (R125). -/
theorem test_sw_source_is_base :
    runs (place 0x100#32 0x00842023#32 [(8, 0x00002000#32), (9, 0xCAFEBABE#32)] [(0x800, 0x11111111#32)] .default) .ok
      (fun s => { (poke s 0x800 0x00002000#32) with pc := 0x104#32, ppc := 0x100#32 }) := by decide

/-- `sw x9, -2048(x8)` (R125). -/
theorem test_sw_negative_address_faults :
    runs (place 0x100#32 0x80942023#32 [(8, 0x00000100#32), (9, 0xCAFEBABE#32)] [] .default)
      (.fault (some ⟨.store, 0x100#32, 0xFFFFF900#32⟩))
      (fun s => { s with
          pc := 0x104#32, ppc := 0x100#32,
          halt := .fault, fault := some ⟨.store, 0x100#32, 0xFFFFF900#32⟩ }) := by decide

/-! ## Branches (section 3.4) -/

/-- `beq x5, x6, -8` (R131). -/
theorem test_beq_not_taken :
    runs (place 0x100#32 0xFE628CE3#32 [(5, 0x00000005#32), (6, 0x00000006#32)] [] .default) .ok
      (fun s => { s with pc := 0x104#32, ppc := 0x100#32 }) := by decide

/-- `bne x5, x6, -8` (R132). -/
theorem test_bne_taken :
    runs (place 0x100#32 0xFE629CE3#32 [(5, 0xFFFFFFFF#32), (6, 0x00000001#32)] [] .default) .ok
      (fun s => { s with pc := 0xF8#32, ppc := 0x100#32 }) := by decide

/-- `bne x5, x6, -8` (R132). -/
theorem test_bne_not_taken :
    runs (place 0x100#32 0xFE629CE3#32 [(5, 0x00000007#32), (6, 0x00000007#32)] [] .default) .ok
      (fun s => { s with pc := 0x104#32, ppc := 0x100#32 }) := by decide

/-- `blt x5, x6, -8` (R133). -/
theorem test_blt_is_signed :
    runs (place 0x100#32 0xFE62CCE3#32 [(5, 0xFFFFFFFF#32), (6, 0x00000001#32)] [] .default) .ok
      (fun s => { s with pc := 0xF8#32, ppc := 0x100#32 }) := by decide

/-- `blt x5, x6, -8` (R133). -/
theorem test_blt_not_taken :
    runs (place 0x100#32 0xFE62CCE3#32 [(5, 0x00000001#32), (6, 0xFFFFFFFF#32)] [] .default) .ok
      (fun s => { s with pc := 0x104#32, ppc := 0x100#32 }) := by decide

/-- `bge x5, x6, -8` (R134). -/
theorem test_bge_taken_on_equal :
    runs (place 0x100#32 0xFE62DCE3#32 [(5, 0x00000003#32), (6, 0x00000003#32)] [] .default) .ok
      (fun s => { s with pc := 0xF8#32, ppc := 0x100#32 }) := by decide

/-- `bge x5, x6, -8` (R134). -/
theorem test_bge_is_signed :
    runs (place 0x100#32 0xFE62DCE3#32 [(5, 0xFFFFFFFF#32), (6, 0x00000001#32)] [] .default) .ok
      (fun s => { s with pc := 0x104#32, ppc := 0x100#32 }) := by decide

/-- `bltu x5, x6, -8` (R135). -/
theorem test_bltu_is_unsigned :
    runs (place 0x100#32 0xFE62ECE3#32 [(5, 0xFFFFFFFF#32), (6, 0x00000001#32)] [] .default) .ok
      (fun s => { s with pc := 0x104#32, ppc := 0x100#32 }) := by decide

/-- `bltu x5, x6, -8` (R135). -/
theorem test_bltu_taken :
    runs (place 0x100#32 0xFE62ECE3#32 [(5, 0x00000001#32), (6, 0xFFFFFFFF#32)] [] .default) .ok
      (fun s => { s with pc := 0xF8#32, ppc := 0x100#32 }) := by decide

/-- `bgeu x5, x6, -8` (R136). -/
theorem test_bgeu_not_taken :
    runs (place 0x100#32 0xFE62FCE3#32 [(5, 0x00000000#32), (6, 0x00000001#32)] [] .default) .ok
      (fun s => { s with pc := 0x104#32, ppc := 0x100#32 }) := by decide

/-- `bgeu x5, x6, -8` (R136). -/
theorem test_bgeu_taken_on_equal :
    runs (place 0x100#32 0xFE62FCE3#32 [(5, 0x00000005#32), (6, 0x00000005#32)] [] .default) .ok
      (fun s => { s with pc := 0xF8#32, ppc := 0x100#32 }) := by decide

/-- `beq x5, x6, -4096` (R131). -/
theorem test_beq_to_unbacked_target :
    runs (place 0x100#32 0x80628063#32 [(5, 0x00000000#32), (6, 0x00000000#32)] [] .default) .ok
      (fun s => { s with pc := 0xFFFFF100#32, ppc := 0x100#32 }) := by decide

/-! ## Jumps (section 3.5) -/

/-- `jal x0, -4` (R137). -/
theorem test_jal_x0_no_link :
    runs (place 0x100#32 0xFFDFF06F#32 [] [] .default) .ok
      (fun s => { (s.setReg 0 0x00000000#32) with pc := 0xFC#32, ppc := 0x100#32 }) := by decide

/-- `jal x1, -1048576` (R137). -/
theorem test_jal_most_negative_offset :
    runs (place 0x100#32 0x800000EF#32 [] [] .default) .ok
      (fun s => { (s.setReg 1 0x00000104#32) with pc := 0xFFF00100#32, ppc := 0x100#32 }) := by decide

/-- `jalr x1, -1(x5)` (R138). -/
theorem test_jalr_clears_bit_zero_only :
    runs (place 0x100#32 0xFFF280E7#32 [(5, 0x00000000#32)] [] .default) .ok
      (fun s => { (s.setReg 1 0x00000104#32) with pc := 0xFFFFFFFE#32, ppc := 0x100#32 }) := by decide

/-- `jalr x5, 0(x5)` (R138). -/
theorem test_jalr_uses_old_base :
    runs (place 0x100#32 0x000282E7#32 [(5, 0x00000301#32)] [] .default) .ok
      (fun s => { (s.setReg 5 0x00000104#32) with pc := 0x300#32, ppc := 0x100#32 }) := by decide

/-! ## Integer computation (section 3.6) -/

/-- `add x10, x5, x6` (R146). -/
theorem test_add_overflow_wraps :
    runs (place 0x100#32 0x00628533#32 [(5, 0x7FFFFFFF#32), (6, 0x00000001#32)] [] .default) .ok
      (fun s => { (s.setReg 10 0x80000000#32) with pc := 0x104#32, ppc := 0x100#32 }) := by decide

/-- `sub x10, x5, x6` (R147). -/
theorem test_sub_borrow_wraps :
    runs (place 0x100#32 0x40628533#32 [(5, 0x00000000#32), (6, 0x00000001#32)] [] .default) .ok
      (fun s => { (s.setReg 10 0xFFFFFFFF#32) with pc := 0x104#32, ppc := 0x100#32 }) := by decide

/-- `sub x10, x5, x6` (R147). -/
theorem test_sub_overflow_wraps :
    runs (place 0x100#32 0x40628533#32 [(5, 0x80000000#32), (6, 0x00000001#32)] [] .default) .ok
      (fun s => { (s.setReg 10 0x7FFFFFFF#32) with pc := 0x104#32, ppc := 0x100#32 }) := by decide

/-- `sll x10, x5, x6` (R148). -/
theorem test_sll_by_32_is_by_0 :
    runs (place 0x100#32 0x00629533#32 [(5, 0x00000001#32), (6, 0x00000020#32)] [] .default) .ok
      (fun s => { (s.setReg 10 0x00000001#32) with pc := 0x104#32, ppc := 0x100#32 }) := by decide

/-- `sll x10, x5, x6` (R148). -/
theorem test_sll_uses_low_five_bits :
    runs (place 0x100#32 0x00629533#32 [(5, 0x12345678#32), (6, 0xFFFFFFE4#32)] [] .default) .ok
      (fun s => { (s.setReg 10 0x23456780#32) with pc := 0x104#32, ppc := 0x100#32 }) := by decide

/-- `slt x10, x5, x6` (R149). -/
theorem test_slt_is_signed :
    runs (place 0x100#32 0x0062A533#32 [(5, 0xFFFFFFFF#32), (6, 0x00000001#32)] [] .default) .ok
      (fun s => { (s.setReg 10 0x00000001#32) with pc := 0x104#32, ppc := 0x100#32 }) := by decide

/-- `slt x10, x5, x6` (R149). -/
theorem test_slt_extremes :
    runs (place 0x100#32 0x0062A533#32 [(5, 0x80000000#32), (6, 0x7FFFFFFF#32)] [] .default) .ok
      (fun s => { (s.setReg 10 0x00000001#32) with pc := 0x104#32, ppc := 0x100#32 }) := by decide

/-- `sltu x10, x5, x6` (R150). -/
theorem test_sltu_is_unsigned :
    runs (place 0x100#32 0x0062B533#32 [(5, 0xFFFFFFFF#32), (6, 0x00000001#32)] [] .default) .ok
      (fun s => { (s.setReg 10 0x00000000#32) with pc := 0x104#32, ppc := 0x100#32 }) := by decide

/-- `sltu x10, x5, x6` (R150). -/
theorem test_sltu_less :
    runs (place 0x100#32 0x0062B533#32 [(5, 0x00000000#32), (6, 0x00000001#32)] [] .default) .ok
      (fun s => { (s.setReg 10 0x00000001#32) with pc := 0x104#32, ppc := 0x100#32 }) := by decide

/-- `xor x10, x5, x6` (R151). -/
theorem test_xor_bits :
    runs (place 0x100#32 0x0062C533#32 [(5, 0xF0F0F0F0#32), (6, 0xFF00FF00#32)] [] .default) .ok
      (fun s => { (s.setReg 10 0x0FF00FF0#32) with pc := 0x104#32, ppc := 0x100#32 }) := by decide

/-- `srl x10, x5, x6` (R152). -/
theorem test_srl_by_31 :
    runs (place 0x100#32 0x0062D533#32 [(5, 0x80000000#32), (6, 0x0000001F#32)] [] .default) .ok
      (fun s => { (s.setReg 10 0x00000001#32) with pc := 0x104#32, ppc := 0x100#32 }) := by decide

/-- `srl x10, x5, x6` (R152). -/
theorem test_srl_by_36_is_by_4 :
    runs (place 0x100#32 0x0062D533#32 [(5, 0x80000000#32), (6, 0x00000024#32)] [] .default) .ok
      (fun s => { (s.setReg 10 0x08000000#32) with pc := 0x104#32, ppc := 0x100#32 }) := by decide

/-- `sra x10, x5, x6` (R153). -/
theorem test_sra_copies_sign :
    runs (place 0x100#32 0x4062D533#32 [(5, 0x80000000#32), (6, 0x00000004#32)] [] .default) .ok
      (fun s => { (s.setReg 10 0xF8000000#32) with pc := 0x104#32, ppc := 0x100#32 }) := by decide

/-- `sra x10, x5, x6` (R153). -/
theorem test_sra_by_32_is_by_0 :
    runs (place 0x100#32 0x4062D533#32 [(5, 0x80000000#32), (6, 0x00000020#32)] [] .default) .ok
      (fun s => { (s.setReg 10 0x80000000#32) with pc := 0x104#32, ppc := 0x100#32 }) := by decide

/-- `or x10, x5, x6` (R154). -/
theorem test_or_bits :
    runs (place 0x100#32 0x0062E533#32 [(5, 0xF0F0F0F0#32), (6, 0x0F0F0F0F#32)] [] .default) .ok
      (fun s => { (s.setReg 10 0xFFFFFFFF#32) with pc := 0x104#32, ppc := 0x100#32 }) := by decide

/-- `and x10, x5, x6` (R155). -/
theorem test_and_bits :
    runs (place 0x100#32 0x0062F533#32 [(5, 0xF0F0F0F0#32), (6, 0xFF00FF00#32)] [] .default) .ok
      (fun s => { (s.setReg 10 0xF000F000#32) with pc := 0x104#32, ppc := 0x100#32 }) := by decide

/-- `add x0, x5, x6` (R146). -/
theorem test_add_to_x0_writes_nothing :
    runs (place 0x100#32 0x00628033#32 [(5, 0x00000001#32), (6, 0x00000002#32)] [] .default) .ok
      (fun s => { (s.setReg 0 0x00000000#32) with pc := 0x104#32, ppc := 0x100#32 }) := by decide

/-- `addi x10, x5, 1` (R157). -/
theorem test_addi_overflow_wraps :
    runs (place 0x100#32 0x00128513#32 [(5, 0x7FFFFFFF#32)] [] .default) .ok
      (fun s => { (s.setReg 10 0x80000000#32) with pc := 0x104#32, ppc := 0x100#32 }) := by decide

/-- `addi x10, x5, -2048` (R157). -/
theorem test_addi_sign_extends :
    runs (place 0x100#32 0x80028513#32 [(5, 0x00000000#32)] [] .default) .ok
      (fun s => { (s.setReg 10 0xFFFFF800#32) with pc := 0x104#32, ppc := 0x100#32 }) := by decide

/-- `slti x10, x5, -4` (R159). -/
theorem test_slti_is_signed :
    runs (place 0x100#32 0xFFC2A513#32 [(5, 0xFFFFFFFB#32)] [] .default) .ok
      (fun s => { (s.setReg 10 0x00000001#32) with pc := 0x104#32, ppc := 0x100#32 }) := by decide

/-- `slti x10, x5, -1` (R159). -/
theorem test_slti_not_less :
    runs (place 0x100#32 0xFFF2A513#32 [(5, 0x00000000#32)] [] .default) .ok
      (fun s => { (s.setReg 10 0x00000000#32) with pc := 0x104#32, ppc := 0x100#32 }) := by decide

/-- `sltiu x10, x5, -1` (R162). -/
theorem test_sltiu_extends_then_compares_unsigned :
    runs (place 0x100#32 0xFFF2B513#32 [(5, 0x00000005#32)] [] .default) .ok
      (fun s => { (s.setReg 10 0x00000001#32) with pc := 0x104#32, ppc := 0x100#32 }) := by decide

/-- `sltiu x10, x5, -1` (R162). -/
theorem test_sltiu_equal :
    runs (place 0x100#32 0xFFF2B513#32 [(5, 0xFFFFFFFF#32)] [] .default) .ok
      (fun s => { (s.setReg 10 0x00000000#32) with pc := 0x104#32, ppc := 0x100#32 }) := by decide

/-- `xori x10, x5, -1` (R160). -/
theorem test_xori_sign_extends :
    runs (place 0x100#32 0xFFF2C513#32 [(5, 0x12345678#32)] [] .default) .ok
      (fun s => { (s.setReg 10 0xEDCBA987#32) with pc := 0x104#32, ppc := 0x100#32 }) := by decide

/-- `ori x10, x5, -2048` (R158). -/
theorem test_ori_sign_extends :
    runs (place 0x100#32 0x8002E513#32 [(5, 0x00000000#32)] [] .default) .ok
      (fun s => { (s.setReg 10 0xFFFFF800#32) with pc := 0x104#32, ppc := 0x100#32 }) := by decide

/-- `andi x10, x5, -16` (R161). -/
theorem test_andi_sign_extends :
    runs (place 0x100#32 0xFF02F513#32 [(5, 0x12345678#32)] [] .default) .ok
      (fun s => { (s.setReg 10 0x12345670#32) with pc := 0x104#32, ppc := 0x100#32 }) := by decide

/-- `slli x10, x5, 4` (R163). -/
theorem test_slli_drops_high_bits :
    runs (place 0x100#32 0x00429513#32 [(5, 0x12345678#32)] [] .default) .ok
      (fun s => { (s.setReg 10 0x23456780#32) with pc := 0x104#32, ppc := 0x100#32 }) := by decide

/-- `srli x10, x5, 4` (R164). -/
theorem test_srli_zero_fills :
    runs (place 0x100#32 0x0042D513#32 [(5, 0xF0000000#32)] [] .default) .ok
      (fun s => { (s.setReg 10 0x0F000000#32) with pc := 0x104#32, ppc := 0x100#32 }) := by decide

/-- `srai x10, x5, 4` (R165). -/
theorem test_srai_sign_fills :
    runs (place 0x100#32 0x4042D513#32 [(5, 0xF0000000#32)] [] .default) .ok
      (fun s => { (s.setReg 10 0xFF000000#32) with pc := 0x104#32, ppc := 0x100#32 }) := by decide

/-! ## ECALL (section 3.7) -/

/-- `ecall (print int)` (R170, R171). -/
theorem test_ecall_prints_most_negative :
    runs (place 0x100#32 0x00000073#32 [(17, 0x00000001#32), (10, 0x80000000#32)] [] .default) .ok
      (fun s => { s with
          pc := 0x104#32, ppc := 0x100#32,
          out := [0x2D#8, 0x32#8, 0x31#8, 0x34#8, 0x37#8, 0x34#8, 0x38#8, 0x33#8, 0x36#8, 0x34#8, 0x38#8] }) := by decide

/-- `ecall (print string, no NUL)` (R170, R172). -/
theorem test_ecall_string_without_nul_faults :
    runs (place 0x100#32 0x00000073#32 [(17, 0x00000004#32), (10, 0x00003FFD#32)] [(0xFFF, 0x41414100#32)] .default)
      (.fault (some ⟨.syscallRead, 0x100#32, 0x00004000#32⟩))
      (fun s => { s with
          pc := 0x104#32, ppc := 0x100#32,
          halt := .fault, fault := some ⟨.syscallRead, 0x100#32, 0x00004000#32⟩ }) := by decide

/-! ## Decode gaps (section 3.8) -/

/-- `(gap) FENCE` (R80). -/
theorem test_fence_is_a_gap :
    runs (place 0x10#32 0x0FF0000F#32 [] [] .default) (.gap 0x0FF0000F#32)
      (fun s => { s with pc := 0x14#32, ppc := 0x10#32, gapSeen := true }) := by decide

/-- `(gap) FENCE [HALT_ON_GAP]` (R80). -/
theorem test_gap_halts_when_asked :
    runs (place 0x10#32 0x0FF0000F#32 [] [] { Params.default with haltOnGap := true }) (.gap 0x0FF0000F#32)
      (fun s => { s with pc := 0x14#32, ppc := 0x10#32, gapSeen := true, halt := .gap }) := by decide

/-- The texts of syscall 1 (section 3.7). -/
theorem test_decimal_texts :
    decimalText 0x0000000A#32 = [0x31#8, 0x30#8] ∧ decimalText 0xFFFFFFFB#32 = [0x2D#8, 0x35#8] ∧
    decimalText 0x00000000#32 = [0x30#8] ∧
    decimalText 0x7FFFFFFF#32 = [0x32#8, 0x31#8, 0x34#8, 0x37#8, 0x34#8, 0x38#8, 0x33#8, 0x36#8, 0x34#8, 0x37#8] := by
  decide

/-! ## The step driver (section 4) -/

theorem test_load_before_the_first_step :
    State.reset.load 0x800 0x12345678#32 = (poke State.reset 0x800 0x12345678#32, .accepted) ∧
    (State.reset.load 0x800 0x12345678#32).1.readMem 0x800 = some 0x12345678#32 := by decide

/-- A loaded zero is a known byte; a byte nobody loaded is that of `MEM_INIT`, which is unknown (R28). -/
theorem test_loaded_zero_is_listed : (State.reset.load 0 0#32).1.mem = [(0, 0#8), (1, 0#8), (2, 0#8), (3, 0#8)] ∧
    ∀ a, State.reset.mem.readByte a = Config.memInit a := ⟨by decide, fun _ => rfl⟩

/-- Where the images overlap, the one loaded later wins (93_implementation_defined.md U18). -/
theorem test_later_load_wins :
    ((State.reset.load 4 1#32).1.load 4 2#32).1.readMem 4 = some 2#32 := by decide

theorem test_load_images : (State.reset.loadImages [0x93#8, 0x02#8, 0xA0#8, 0x00#8] [0x48#8, 0x65#8, 0x6C#8, 0x6C#8]) =
    poke (poke State.reset 0 0x00A00293#32) 0x800 0x6C6C6548#32 := by decide

theorem test_step_ignores_the_text_bound :
    runs (place 0x2000#32 0x00100513#32 [] [] .default) .ok
      (fun s => { (s.setReg 10 1#32) with pc := 0x2004#32, ppc := 0x2000#32 }) := by decide

theorem test_reset_after_a_fault :
    ((({ place 0x4000#32 0#32 [(5, 7#32)] [] .default with out := [0x31#8] }).fetchFault).doReset) =
      { State.reset with mem := (place 0x4000#32 0#32 [] [] .default).mem } := by decide

/-! ## Pseudo-instructions and assembler forms (R82, R83) -/

theorem test_li_expands : Pseudo.expand (.li 5 0x12345FFF#32) = [.lui 5 0x12346000#32, .addi 5 5 (-1#32)] ∧
    Pseudo.expand (.li 5 2047#32) = [.addi 5 0 2047#32] ∧
    Pseudo.expand (.li 5 2048#32) = [.lui 5 0x1000#32, .addi 5 5 (-2048#32)] := by decide

theorem test_assembler_forms : asmOperands (.sw 8 9 0#32) = [.reg 9, .mem 0 8] ∧
    asmOperands (.lui 5 0x12345000#32) = [.reg 5, .imm 0x12345] ∧
    asmOperands (.beq 5 6 (-8#32)) = [.reg 5, .reg 6, .imm (-8)] := by decide

/-! ## Witnesses: a concrete state and operands for the hypotheses of each obligation

Each says that the hypotheses of the obligation it names are met together, at the ends of their ranges where they
have any. -/

/-- No row of the opcode table matches FENCE. -/
theorem fence_matches_no_row : ∀ o : Op, o.matches 0x0FF0000F#32 = false := by
  intro o
  cases o <;> decide

theorem witness_DecodeOfEncodeIsTheInstruction : Instr.wf (.addi 31 31 (-2048#32)) = true ∧
    Instr.wf (.sw 31 31 2047#32) = true ∧ Instr.wf (.bgeu 31 31 4094#32) = true ∧
    Instr.wf (.lui 31 0xFFFFF000#32) = true ∧ Instr.wf (.jal 31 (-1048576#32)) = true := by decide

theorem witness_EncodeOfDecodeIsTheWord : decodeWord 0xFFFFFFEF#32 = .ok (.jal 31 (-2#32)) := by decide

theorem witness_DecoderAgreesWithOpcodeTable : Op.sub.matches 0x40628533#32 = true := by decide

/-- The lowest and the highest bit of an offset (section 2: `immB` of this word is `0xFFFFF000`). -/
theorem witness_ImmediateBitsAndRanges : 0 < 32 ∧ (immB 0x80000063#32).getLsbD 0 = false ∧
    31 < 32 ∧ (immB 0x80000063#32).getLsbD 31 = true ∧ (immB 0x80000063#32).getLsbD 11 = false := by decide

theorem witness_ImmediateRoundTrip : fits12 (-2048#32) = true ∧ fits12 2047#32 = true ∧ fitsB (-4096#32) = true ∧
    fitsB 4094#32 = true ∧ fitsU 0xFFFFF000#32 = true ∧ fitsJ (-1048576#32) = true ∧ fitsJ 1048574#32 = true := by
  decide

theorem witness_RegisterReadAfterWrite : (31 : Reg) ≠ 0 ∧ (31 : Reg) ≠ 30 := by decide

theorem witness_HaltedBlockDoesNotStep : (State.reset.exit).halt ≠ .none ∧ (State.reset.fetchFault).halt ≠ .none ∧
    ({ State.reset with halt := .gap } : State).halt ≠ .none ∧ 0xFFF < State.reset.exit.params.memWords.val := by decide

/-- One state outside memory, one misaligned, one both, one at the last word of the address space. -/
theorem witness_FetchCheckFaults :
    let bad (pc : Word) : Prop := (place pc 0#32 [] [] .default).halt = .none ∧
      ((place pc 0#32 [] [] .default).pc.toNat % 4 ≠ 0 ∨
        (place pc 0#32 [] [] .default).params.memBytes ≤ (place pc 0#32 [] [] .default).pc.toNat)
    bad 0x4000#32 ∧ bad 0x3FFE#32 ∧ bad 0xFFFFFFFE#32 ∧ bad 0xFFFFFFFC#32 := by decide

/-- ECALL in the last word of memory: `pc` is aligned and backed. -/
def lastWord : State := place 0x3FFC#32 0x00000073#32 [(17, 10#32)] [] .default

/-- The four bytes at the `pc`. -/
def bytesAtPc (s : State) : List Byte :=
  [s.mem.readByte s.pc.toNat, s.mem.readByte (s.pc.toNat + 1), s.mem.readByte (s.pc.toNat + 2),
    s.mem.readByte (s.pc.toNat + 3)]

/-- An instruction, and a gap, in the last word of memory. -/
theorem witness_StepExecutesDecodedInstruction :
    let gap := place 0x3FFC#32 0x0FF0000F#32 [] [] .default
    (lastWord.halt = .none ∧ lastWord.pc.toNat % 4 = 0 ∧ lastWord.pc.toNat < lastWord.params.memBytes ∧
      decodeBytes (bytesAtPc lastWord) = .ok (.ecall, [])) ∧
    (gap.halt = .none ∧ gap.pc.toNat % 4 = 0 ∧ gap.pc.toNat < gap.params.memBytes ∧
      decodeBytes (bytesAtPc gap) = .error .opcode) := by decide

/-- FENCE at the last word, with and without `HALT_ON_GAP`. -/
def gapState (halts : Bool) : State :=
  place 0x3FFC#32 0x0FF0000F#32 [] [] { Params.default with haltOnGap := halts }

theorem witness_DecodeGapIsRecorded : ∀ halts : Bool, (gapState halts).halt = .none ∧
    (gapState halts).pc.toNat % 4 = 0 ∧ (gapState halts).pc.toNat < (gapState halts).params.memBytes ∧
    (gapState halts).params.haltOnGap = halts ∧ ∀ o : Op, o.matches ((gapState halts).memRead (gapState halts).pc) = false := by
  intro halts
  have h : (gapState halts).memRead (gapState halts).pc = 0x0FF0000F#32 := by cases halts <;> decide
  rw [h]
  refine ⟨by cases halts <;> decide, by cases halts <;> decide, by cases halts <;> decide, by cases halts <;> decide,
    fence_matches_no_row⟩

/-- A running state whose memory is not empty meets the invariant. -/
theorem lastWord_inv : lastWord.Inv where
  memWf := by decide
  memBacked := by decide
  x0Zero := by decide
  pcEven := by decide
  ppcAligned := by decide
  faultRecorded := by decide
  faultTruthful := by
    intro f h
    have : lastWord.fault = none := by decide
    rw [this] at h
    cases h
  gapHalt := by decide
  fresh := by decide

theorem witness_StepAlwaysAnswersWithItsOutcome : stepOutcome lastWord = .exit ∧
    stepOutcome (gapState true) = .gap 0x0FF0000F#32 ∧ stepOutcome State.reset.exit = .halted := by decide

theorem witness_PlacedWordIsExecuted : lastWord.halt = .none ∧ lastWord.pc.toNat % 4 = 0 ∧
    lastWord.pc.toNat < lastWord.params.memBytes ∧
    decodeTableWord 32 0x00A00293 = some (.addi 5 0 10#32) ∧ decodeTableWord 16 0x0037 = some (.lui 0 0#32) := by decide

theorem witness_StepKeepsInvariant : lastWord.Inv ∧ step lastWord = .next (stepState lastWord) :=
  ⟨lastWord_inv, step_eq_next _⟩

theorem witness_LaunchMeetsInvariant : Params.default.resetPc.toNat % 2 = 0 ∧
    Memory.wf [(0, 0x73#8), (0x3FFF, 0x01#8)] ∧
    Memory.below [(0, 0x73#8), (0x3FFF, 0x01#8)] Params.default.memBytes := by decide

theorem witness_HostOperationsKeepInvariant : lastWord.Inv ∧ lastWord.params.resetPc.toNat % 2 = 0 :=
  ⟨lastWord_inv, by decide⟩

/-- ECALL with syscall 1 prints. -/
def printing : State := place 0x100#32 0x00000073#32 [(17, 1#32), (10, 7#32)] [] .default

theorem witness_ConsoleIsAppendOnly : step printing = .next (stepState printing) ∧
    (stepState printing).out ≠ printing.out := ⟨step_eq_next _, by decide⟩

/-- SW to the last byte of memory. -/
def storing : State := place 0x100#32 0x00942023#32 [(8, 0x3FFF#32), (9, 0xCAFEBABE#32)] [] .default

/-- A fetch fault, a load fault, a store fault and a string fault. -/
def faulting : FaultKind → State
  | .fetch => place 0x3FFE#32 0#32 [] [] .default
  | .load => place 0x100#32 0x00044003#32 [(8, 0x4000#32)] [] .default
  | .store => place 0x100#32 0x00942023#32 [(8, 0xFFFFFFFC#32)] [] .default
  | .syscallRead => place 0x100#32 0x00000073#32 [(17, 4#32), (10, 0x3FFD#32)] [(0xFFF, 0x41414100#32)] .default

/-- A store to the last byte of memory, a store outside memory, and no store at all. -/
theorem witness_OnlyStoresChangeMemory :
    (step storing = .next (stepState storing) ∧ decodeWord (storing.memRead storing.pc) = .ok (.sw 8 9 0#32) ∧
      storeAddress storing (.sw 8 9 0#32) = some 0x3FFF#32 ∧ (0x3FFF#32).toNat < storing.params.memBytes ∧
      slotIndex 0x3FFF#32 = 0xFFF) ∧
    (step (faulting .store) = .next (stepState (faulting .store)) ∧
      decodeWord ((faulting .store).memRead (faulting .store).pc) = .ok (.sw 8 9 0#32) ∧
      storeAddress (faulting .store) (.sw 8 9 0#32) = some 0xFFFFFFFC#32 ∧
      (faulting .store).params.memBytes ≤ (0xFFFFFFFC#32).toNat) ∧
    (step lastWord = .next (stepState lastWord) ∧ decodeWord (lastWord.memRead lastWord.pc) = .ok .ecall ∧
      storeAddress lastWord .ecall = none) := by
  refine ⟨⟨step_eq_next _, ?_⟩, ⟨step_eq_next _, ?_⟩, ⟨step_eq_next _, ?_⟩⟩ <;> decide

/-- `addi x31, x5, -1`. -/
def adding : State := place 0x100#32 0xFFF28F93#32 [(5, 5#32)] [] .default

theorem witness_OnlyTheDestinationRegisterChanges : step adding = .next (stepState adding) ∧
    (stepState adding).getReg 31 ≠ adding.getReg 31 := ⟨step_eq_next _, by decide⟩

theorem witness_GapSeenIsSticky : step (gapState false) = .next (stepState (gapState false)) ∧
    (gapState false).gapSeen = false ∧ (stepState (gapState false)).gapSeen = true ∧
    0xFFF < (gapState false).params.memWords.val := ⟨step_eq_next _, by decide, by decide, by decide⟩

/-- A step to the next word that wraps nothing, and a taken branch. -/
theorem witness_FetchAdvancesThePc :
    step lastWord = .next (stepState lastWord) ∧ lastWord.halt = .none ∧ lastWord.pc.toNat % 4 = 0 ∧
    lastWord.pc.toNat < lastWord.params.memBytes ∧ (stepState lastWord).pc = 0x4000#32 ∧
    (stepState (place 0x100#32 0x80628063#32 [] [] .default)).pc = 0xFFFFF100#32 :=
  ⟨step_eq_next _, by decide, by decide, by decide, by decide, by decide⟩

theorem witness_FaultsArePrecise : ∀ k : FaultKind, (faulting k).halt = .none ∧
    step (faulting k) = .next (stepState (faulting k)) ∧ (stepState (faulting k)).halt = .fault ∧
    (stepState (faulting k)).fault.map (·.kind) = some k := by
  intro k
  cases k <;> exact ⟨by decide, step_eq_next _, by decide, by decide⟩

theorem witness_FaultKindsNameTheirInstructions : ∀ k : FaultKind, (faulting k).halt = .none ∧
    step (faulting k) = .next (stepState (faulting k)) ∧ (stepState (faulting k)).halt = .fault ∧
    ∃ f, (stepState (faulting k)).fault = some f ∧ f.kind = k := by
  intro k
  obtain ⟨h1, h2, h3, h4⟩ := witness_FaultsArePrecise k
  exact ⟨h1, h2, h3, by simpa using h4⟩

theorem witness_OldPreviousPcIsUnobservable : adding.halt = .none ∧ adding.pc.toNat % 4 = 0 ∧
    adding.pc.toNat < adding.params.memBytes ∧ adding.ppc ≠ 0x44#32 := by decide

theorem witness_ParametersAreFixed : step State.reset = .next (stepState State.reset) ∧ State.reset.halt = .none ∧
    adding.started = true := ⟨step_eq_next _, by decide, by decide⟩

/-- The last byte of memory, the first byte, the first byte outside, and an address below 0. -/
theorem witness_LoadResults :
    let s := place 0x100#32 0#32 [(8, 0x3801#32)] [] .default
    let addressed (a imm : Word) (rs1 : Reg) : Prop := a.toNat = ((s.getReg rs1).toNat + imm.toNat) % 2 ^ 32
    (addressed 0x3FFF#32 2046#32 8 ∧ (0x3FFF#32).toNat < s.params.memBytes ∧ 0x3FFC = 4 * ((0x3FFF#32).toNat / 4)) ∧
    (addressed 0#32 0#32 0 ∧ (0#32).toNat < s.params.memBytes) ∧
    (addressed 0x4000#32 2047#32 8 ∧ s.params.memBytes ≤ (0x4000#32).toNat) ∧
    (addressed 0xFFFFFFFC#32 (-4#32) 0 ∧ s.params.memBytes ≤ (0xFFFFFFFC#32).toNat) := by decide

theorem witness_StoreWordResult :
    (0x3FFF#32 = storing.effectiveAddress 8 0#32 ∧ (0x3FFF#32).toNat < storing.params.memBytes) ∧
    (0x4000#32 = storing.effectiveAddress 8 1#32 ∧ storing.params.memBytes ≤ (0x4000#32).toNat) ∧
    (0xFFFFFFFF#32 = storing.effectiveAddress 0 (-1#32) ∧ storing.params.memBytes ≤ (0xFFFFFFFF#32).toNat) := by decide

theorem witness_NarrowStoreResults : ∀ n : NarrowStore,
    let s := place 0x100#32 0#32 [(8, 0x3FFF#32)] [] { Params.default with narrowStore := n }
    s.params.narrowStore = n ∧
    (0x3FFF#32 = s.effectiveAddress 8 0#32 ∧ (0x3FFF#32).toNat < s.params.memBytes) ∧
    (0x4000#32 = s.effectiveAddress 8 1#32 ∧ s.params.memBytes ≤ (0x4000#32).toNat) := by
  intro n
  cases n <;> decide

/-- `sw x9, 3(x8)` just before the last word of memory, into that word. -/
theorem witness_StoredWordIsFetchedNext :
    let s := place 0x3FF8#32 0x009421A3#32 [(8, 0x3FFC#32), (9, 0x00100513#32)] [] .default
    s.halt = .none ∧ s.pc.toNat % 4 = 0 ∧ s.pc.toNat + 4 < s.params.memBytes ∧
    decodeWord (s.memRead s.pc) = .ok (.sw 8 9 3#32) ∧
    (s.effectiveAddress 8 3#32).toNat / 4 = s.pc.toNat / 4 + 1 ∧
    decodeWord (s.getReg 9) = .ok (.addi 10 0 1#32) := by decide

/-- Two orders of writing the same bytes. -/
theorem witness_CanonicalMemoriesReadingAlikeAreEqual :
    let m := (Memory.writeByte [] 5 1#8).writeByte 3 0#8
    let m' := ((Memory.writeByte [] 3 2#8).writeByte 5 1#8).writeByte 3 0#8
    m.wf ∧ m'.wf ∧ (∀ a, (∃ b, (a, b) ∈ m) ↔ (∃ b, (a, b) ∈ m')) ∧ ∀ a, m.readByte a = m'.readByte a := by
  have h : (Memory.writeByte [] 5 1#8).writeByte 3 0#8 =
    ((Memory.writeByte [] 3 2#8).writeByte 5 1#8).writeByte 3 0#8 := by decide
  exact ⟨by decide, by decide, fun a => by rw [h], fun a => by rw [h]⟩

/-- A taken branch, to a target that is 2 modulo 4 and to one outside memory. -/
theorem witness_BadTargetsFaultAtTheNextFetch :
    let s := place 0x100#32 0x00000363#32 [] [] .default
    let s' := place 0x3FFC#32 0x80628063#32 [] [] .default
    (s.halt = .none ∧ s.pc.toNat % 4 = 0 ∧ s.pc.toNat < s.params.memBytes ∧
      decodeWord (s.memRead s.pc) = .ok (.beq 0 0 6#32) ∧ Op.beq ∈ controlOps ∧ (stepState s).pc.toNat % 4 = 2) ∧
    (s'.halt = .none ∧ s'.pc.toNat % 4 = 0 ∧ s'.pc.toNat < s'.params.memBytes ∧
      decodeWord (s'.memRead s'.pc) = .ok (.beq 5 6 (-4096#32)) ∧
      (stepState (place 0x100#32 0x80628063#32 [] [] .default)).pc.toNat ≥ s'.params.memBytes) := by decide

/-- The lowest and the highest bit of `0xF0F0F0F0 xor 0xFF00FF00`, which is `0x0FF00FF0` (section 3.6). -/
theorem witness_LogicalResults : 0 < 32 ∧ 31 < 32 ∧ 0xF0F0F0F0#32 ^^^ 0xFF00FF00#32 = 0x0FF00FF0#32 ∧
    (0x0FF00FF0#32).getLsbD 0 = false ∧ (0x0FF00FF0#32).getLsbD 31 = false ∧ (0x0FF00FF0#32).getLsbD 4 = true := by
  decide

/-- Operands for which the signed and the unsigned relations differ, and equal ones. -/
theorem witness_BranchResults :
    (place 0#32 0#32 [(5, 0x80000000#32), (6, 0x7FFFFFFF#32)] [] .default).getReg 5 = 0x80000000#32 ∧
    (0x80000000#32).toInt < (0x7FFFFFFF#32).toInt ∧ ¬ (0x80000000#32).toNat < (0x7FFFFFFF#32).toNat := by decide

/-- An SLLI word with funct7 = 1. -/
theorem witness_ImmediateShiftResults : 0x02429513#32 &&& 0x0000707F#32 = 0x00001013#32 ∧
    0x02429513#32 &&& 0xFE000000#32 ≠ 0#32 := by decide

theorem witness_EcallPrintsInteger : printing.getReg printing.params.sysNumReg = 1#32 := by decide

/-- Syscall 4 with a string whose NUL is the last byte of memory, with the empty string there, and with one space. -/
theorem witness_EcallPrintsStringOrSpace_text :
    let s := place 0x100#32 0x00000073#32 [(17, 4#32), (10, 0x3FFC#32)] [(0xFFF, 0x00414141#32)] .default
    s.getReg s.params.sysNumReg = 4#32 ∧ 0x3FFC#32 = s.getReg s.params.sysArgReg ∧ s.sys4Space = false ∧
    (0x3FFC#32).toNat + 3 < s.params.memBytes ∧ (∀ k < 3, s.mem.readByte ((0x3FFC#32).toNat + k) ≠ 0#8) ∧
    s.mem.readByte ((0x3FFC#32).toNat + 3) = 0#8 ∧ s.mem.readByte ((0x3FFF#32).toNat + 0) = 0#8 := by decide

theorem witness_EcallPrintsStringOrSpace_space :
    let s := place 0x100#32 0x00000073#32 [(17, 4#32)] [] { Params.default with sys4Space := .constant true }
    s.getReg s.params.sysNumReg = 4#32 ∧ s.sys4Space = true := by decide

/-- No NUL up to the last byte of memory, and a string that starts outside memory. -/
theorem witness_EcallPrintsStringOrSpace_fault :
    let s := faulting .syscallRead
    s.getReg s.params.sysNumReg = 4#32 ∧ 0x3FFD#32 = s.getReg s.params.sysArgReg ∧ s.sys4Space = false ∧
    (∀ x, (0x3FFD#32).toNat ≤ x → x < s.params.memBytes → s.mem.readByte x ≠ 0#8) ∧
    (0x4000#32).toNat = max (0x3FFD#32).toNat s.params.memBytes ∧
    (∀ x, (0xFFFFFFFF#32).toNat ≤ x → x < s.params.memBytes → s.mem.readByte x ≠ 0#8) ∧
    (0xFFFFFFFF#32).toNat = max (0xFFFFFFFF#32).toNat s.params.memBytes := by
  have hb : (faulting .syscallRead).params.memBytes = 0x4000 := by decide
  have h : ∀ k < 3, (faulting .syscallRead).mem.readByte (0x3FFD + k) ≠ 0#8 := by decide
  refine ⟨by decide, by decide, by decide, fun x h1 h2 => ?_, by decide, fun x h1 h2 => ?_, by decide⟩
  · rw [hb] at h2
    have h1 : 0x3FFD ≤ x := h1
    have := h (x - 0x3FFD) (by omega)
    rwa [show 0x3FFD + (x - 0x3FFD) = x by omega] at this
  · rw [hb] at h2
    have h1 : 0xFFFFFFFF ≤ x := h1
    omega

theorem witness_EcallExits : lastWord.halt = .none ∧ lastWord.pc.toNat % 4 = 0 ∧
    lastWord.pc.toNat < lastWord.params.memBytes ∧ lastWord.memRead lastWord.pc = 0x00000073#32 ∧
    lastWord.getReg lastWord.params.sysNumReg = 10#32 := by decide

/-- The number is compared over all 32 bits: `0x101` is not 1. -/
theorem witness_EcallWithOtherNumberDoesNothing :
    let s := place 0x3FFC#32 0x00000073#32 [(17, 0x101#32)] [] .default
    s.halt = .none ∧ s.pc.toNat % 4 = 0 ∧ s.pc.toNat < s.params.memBytes ∧ s.memRead s.pc = 0x00000073#32 ∧
    s.getReg s.params.sysNumReg ≠ 1#32 ∧ s.getReg s.params.sysNumReg ≠ 4#32 ∧
    s.getReg s.params.sysNumReg ≠ 10#32 := by decide

/-- `run` takes the step whose `pc` is the last word below the bound, and none at the bound. -/
theorem witness_RunNeverFetchesAtTheBound :
    runSteps 2 (place 0x1FFC#32 0x00000013#32 [] [] .default) = [place 0x1FFC#32 0x00000013#32 [] [] .default] := by
  decide

/-- The five outcomes of `run`, without a step but for the bound. -/
theorem witness_RunStopsAsItsOutcomeSays :
    (run 2 (place 0x1FFC#32 0x00000013#32 [] [] .default)).2 = .bound ∧
    run 1 (place 0x2000#32 0#32 [] [] .default) = (place 0x2000#32 0#32 [] [] .default, .bound) ∧
    run 0 State.reset = (State.reset, .aborted) ∧ run 1 State.reset.exit = (State.reset.exit, .exit) ∧
    run 1 State.reset.fetchFault = (State.reset.fetchFault, .fault (some ⟨.fetch, 0#32, 0#32⟩)) ∧
    (run 1 ({ State.reset with halt := .gap } : State)).2 = .gap := by decide

theorem witness_LoaderWritesOnlyBeforeTheFirstStep :
    State.reset.started = false ∧ 0xFFF < State.reset.params.memWords.val ∧
    adding.started = true ∧ State.reset.halt = .none ∧ step State.reset = .next (stepState State.reset) :=
  ⟨by decide, by decide, by decide, by decide, step_eq_next _⟩

theorem witness_SlotsAreLittleEndian : State.reset.started = false ∧
    0xFFF < State.reset.params.memWords.val ∧ 3 < 4 ∧ (0x3FFF#32).toNat = 4 * 0xFFF + 3 := by decide

end Sys2Proof.Tests
end

section
/-! SUPPORT. The decoder against the opcode table (30_encoding.md R63 to R76): the dispatch tree finds an instruction
exactly where a row of the table matches, and every instruction it finds is well-formed. -/

namespace Sys2Proof

/-! ## The immediates of a word lie in their ranges (R63 to R67) -/

theorem fits12_signExtend (v : BitVec 12) : fits12 (v.signExtend 32) = true := by
  have hv : (v.signExtend 32).toInt = v.toInt := BitVec.toInt_signExtend_of_le (by decide)
  have lo := BitVec.le_toInt v
  have hi := BitVec.toInt_lt (x := v)
  simp only [fits12, hv, Bool.and_eq_true, decide_eq_true_eq]
  omega

/-- A 0 appended below doubles the signed value. -/
theorem toInt_append_zero {n : Nat} (v : BitVec n) : (v ++ 0#1).toInt = 2 * v.toInt := by
  have hv : (v ++ 0#1).toNat = 2 * v.toNat := by
    simp [BitVec.toNat_append, Nat.shiftLeft_eq, Nat.mul_comm]
  simp only [BitVec.toInt_eq_toNat_cond, hv, Nat.pow_succ]
  split <;> split <;> omega

theorem fitsB_signExtend (v : BitVec 12) : fitsB ((v ++ 0#1).signExtend 32) = true := by
  have hv : ((v ++ 0#1).signExtend 32).toInt = 2 * v.toInt :=
    (BitVec.toInt_signExtend_of_le (by decide)).trans (toInt_append_zero v)
  have lo := BitVec.le_toInt v
  have hi := BitVec.toInt_lt (x := v)
  simp only [fitsB, hv, Bool.and_eq_true, decide_eq_true_eq]
  omega

theorem fitsJ_signExtend (v : BitVec 20) : fitsJ ((v ++ 0#1).signExtend 32) = true := by
  have hv : ((v ++ 0#1).signExtend 32).toInt = 2 * v.toInt :=
    (BitVec.toInt_signExtend_of_le (by decide)).trans (toInt_append_zero v)
  have lo := BitVec.le_toInt v
  have hi := BitVec.toInt_lt (x := v)
  simp only [fitsJ, hv, Bool.and_eq_true, decide_eq_true_eq]
  omega

@[simp] theorem fits12_immI (w : Word) : fits12 (immI w) = true := fits12_signExtend _
@[simp] theorem fits12_immS (w : Word) : fits12 (immS w) = true := fits12_signExtend _
@[simp] theorem fitsB_immB (w : Word) : fitsB (immB w) = true := fitsB_signExtend _
@[simp] theorem fitsJ_immJ (w : Word) : fitsJ (immJ w) = true := fitsJ_signExtend _

@[simp] theorem fitsU_immU (w : Word) : fitsU (immU w) = true := by
  have h : (immU w).toNat = (w.extractLsb' 12 20).toNat * 4096 := by
    rw [immU, BitVec.toNat_append]
    simp [Nat.shiftLeft_eq]
  simp [fitsU, h]

/-! ## A mask compares fields (R75, R76) -/

theorem and_eq_and_iff {w m mask : Word} :
    w &&& mask = m &&& mask ↔ ∀ k < 32, mask.getLsbD k = true → w.getLsbD k = m.getLsbD k := by
  rw [BitVec.eq_of_getLsbD_eq_iff]
  refine forall₂_congr fun k _ => ?_
  cases h : mask.getLsbD k <;> simp [h]

theorem extractLsb'_eq_iff {w m : Word} {start len : Nat} :
    w.extractLsb' start len = m.extractLsb' start len ↔
      ∀ k, start ≤ k → k < start + len → w.getLsbD k = m.getLsbD k := by
  refine ⟨fun h k lo hi => ?_, fun h => BitVec.eq_of_getLsbD_eq fun k hk => ?_⟩
  · have := congrArg (·.getLsbD (k - start)) h
    simpa [Nat.add_sub_cancel' lo, show k - start < len by omega] using this
  · simp [hk, h (start + k) (by omega) (by omega)]

theorem matches_iff (o : Op) (w : Word) : o.matches w = true ↔ w &&& o.maskBits = o.matchBits &&& o.maskBits := by
  have closed : o.matchBits &&& o.maskBits = o.matchBits := by cases o <;> rfl
  rw [closed, Op.matches, beq_iff_eq]

/-- A row whose mask is the opcode. -/
theorem matches_iff_opcode {o : Op} (h : o.maskBits = 0x0000007F#32) (w : Word) :
    o.matches w = true ↔ (fieldsOf w).opcode = (fieldsOf o.matchBits).opcode := by
  have bits : ∀ k < 32, (0x0000007F#32).getLsbD k = true ↔ k < 7 := by decide
  simp only [matches_iff, h, fieldsOf, and_eq_and_iff, extractLsb'_eq_iff]
  grind

/-- A row whose mask is the opcode and funct3. -/
theorem matches_iff_funct3 {o : Op} (h : o.maskBits = 0x0000707F#32) (w : Word) :
    o.matches w = true ↔ (fieldsOf w).opcode = (fieldsOf o.matchBits).opcode ∧
      (fieldsOf w).funct3 = (fieldsOf o.matchBits).funct3 := by
  have bits : ∀ k < 32, (0x0000707F#32).getLsbD k = true ↔ k < 7 ∨ 12 ≤ k ∧ k < 15 := by decide
  simp only [matches_iff, h, fieldsOf, and_eq_and_iff, extractLsb'_eq_iff]
  grind

/-- A row whose mask is the opcode, funct3 and funct7. -/
theorem matches_iff_funct7 {o : Op} (h : o.maskBits = 0xFE00707F#32) (w : Word) :
    o.matches w = true ↔ (fieldsOf w).opcode = (fieldsOf o.matchBits).opcode ∧
      (fieldsOf w).funct3 = (fieldsOf o.matchBits).funct3 ∧ (fieldsOf w).funct7 = (fieldsOf o.matchBits).funct7 := by
  have bits : ∀ k < 32, (0xFE00707F#32).getLsbD k = true ↔ k < 7 ∨ 12 ≤ k ∧ k < 15 ∨ 25 ≤ k := by decide
  simp only [matches_iff, h, fieldsOf, and_eq_and_iff, extractLsb'_eq_iff]
  grind

/-- The row of ECALL is one word (R74). -/
theorem matches_ecall_iff (w : Word) : Op.ecall.matches w = true ↔ w = 0x00000073#32 := by
  rw [Op.matches, beq_iff_eq]
  exact ⟨fun h => (BitVec.and_allOnes (x := w)).symm.trans h, fun h => h ▸ rfl⟩

/-! ## From a row to its instruction -/

/-- The dispatch tree finds the instruction of every row a word matches (R75). -/
theorem decodeWord_of_matches {w : Word} {o : Op} (h : o.matches w = true) :
    ∃ i, decodeWord w = .ok i ∧ i.op = o := by
  cases o
  case lui | auipc | jal =>
    have hop := (matches_iff_opcode rfl w).mp h
    exact ⟨_, by simp only [decodeWord, hop]; rfl, by rfl⟩
  case lb | lh | lw | lbu | lhu | sb | sh | sw | beq | bne | blt | bge | bltu | bgeu | jalr | addi | ori | slti | xori
      | andi | sltiu =>
    obtain ⟨hop, hf3⟩ := (matches_iff_funct3 rfl w).mp h
    exact ⟨_, by
      simp only [decodeWord, hop, selectJalr, selectBranch, selectLoad, selectStore, selectOpImm, hf3]; rfl, by rfl⟩
  case add | sub | sll | slt | sltu | xor | srl | sra | or | and | slli | srli | srai =>
    obtain ⟨hop, hf3, hf7⟩ := (matches_iff_funct7 rfl w).mp h
    exact ⟨_, by simp only [decodeWord, hop, selectOp, selectOpImm, hf3, hf7]; rfl, by rfl⟩
  case ecall =>
    obtain rfl := (matches_ecall_iff w).mp h
    exact ⟨.ecall, rfl, rfl⟩

/-! ## From an instruction to its row and its ranges -/

/-- The opcode of a family (R71). -/
def Family.opcode : Family → BitVec 7
  | .lui => 0b0110111#7
  | .auipc => 0b0010111#7
  | .jal => 0b1101111#7
  | .jalr => 0b1100111#7
  | .branch => 0b1100011#7
  | .load => 0b0000011#7
  | .store => 0b0100011#7
  | .opImm => 0b0010011#7
  | .op => 0b0110011#7
  | .system => 0b1110011#7

theorem opcode_of_familyOf {c : BitVec 7} {f : Family} (h : familyOf c = some f) : c = f.opcode := by
  unfold familyOf at h
  split at h <;> cases h <;> rfl

section
variable {w : Word} {i : Instr}

theorem selectOpImm_ok (hop : (fieldsOf w).opcode = Family.opImm.opcode) (h : selectOpImm (fieldsOf w) = .ok i) :
    i.wf = true ∧ i.op.matches w = true := by
  unfold selectOpImm at h
  split at h
  case h_2 | h_6 =>
    split at h <;> cases h
    all_goals
      refine ⟨rfl, ?_⟩
      rw [Instr.op, matches_iff_funct7 rfl, hop, ‹(fieldsOf w).funct3 = _›, ‹(fieldsOf w).funct7 = _›]
      decide
  case h_9 => cases h
  all_goals
    cases h
    refine ⟨fits12_immI w, ?_⟩
    rw [Instr.op, matches_iff_funct3 rfl, hop, ‹(fieldsOf w).funct3 = _›]
    decide

theorem selectOp_ok (hop : (fieldsOf w).opcode = Family.op.opcode) (h : selectOp (fieldsOf w) = .ok i) :
    i.wf = true ∧ i.op.matches w = true := by
  unfold selectOp at h
  split at h
  case h_1 | h_2 =>
    split at h <;> cases h
    all_goals
      refine ⟨rfl, ?_⟩
      rw [Instr.op, matches_iff_funct7 rfl, hop, ‹(fieldsOf w).funct3 = _›, ‹(fieldsOf w).funct7 = _›]
      decide
  case h_3 => cases h

theorem selectSystem_ok (h : selectSystem w = .ok i) : i.wf = true ∧ i.op.matches w = true := by
  unfold selectSystem at h
  split at h <;> cases h
  exact ⟨rfl, (matches_ecall_iff w).mpr ‹_›⟩

/-- A word that decodes matches the row of its instruction, and the instruction is well-formed (R68, R75). -/
theorem decodeWord_ok (h : decodeWord w = .ok i) : i.wf = true ∧ i.op.matches w = true := by
  simp only [decodeWord] at h
  split at h
  case h_1 => cases h
  case h_2 | h_3 | h_4 =>
    have hop := opcode_of_familyOf ‹_›
    cases h
    rw [Instr.op, matches_iff_opcode rfl, hop]
    exact ⟨by simp [Instr.wf, fieldsOf], by decide⟩
  case h_5 | h_6 | h_7 | h_8 =>
    have hop := opcode_of_familyOf ‹_›
    simp only [selectJalr, selectBranch, selectLoad, selectStore] at h
    split at h <;> cases h
    all_goals
      rw [Instr.op, matches_iff_funct3 rfl, hop, ‹(fieldsOf w).funct3 = _›]
      exact ⟨by simp [Instr.wf, fieldsOf], by decide⟩
  case h_9 => exact selectOpImm_ok (opcode_of_familyOf ‹_›) h
  case h_10 => exact selectOp_ok (opcode_of_familyOf ‹_›) h
  case h_11 => exact selectSystem_ok h

end

theorem wf_of_decodeWord {w : Word} {i : Instr} (h : decodeWord w = .ok i) : i.wf = true := (decodeWord_ok h).1

/-- A word is a decode gap exactly where no row matches it (R75, R78). -/
theorem decodeWord_error_iff (w : Word) : (∃ g, decodeWord w = .error g) ↔ ∀ o : Op, o.matches w = false := by
  constructor
  · rintro ⟨g, hg⟩ o
    by_contra hm
    obtain ⟨i, hi, -⟩ := decodeWord_of_matches (Bool.not_eq_false _ ▸ hm)
    simp [hg] at hi
  · intro none_matches
    cases hd : decodeWord w with
    | error g => exact ⟨g, rfl⟩
    | ok i => simpa [none_matches] using (decodeWord_ok hd).2

end Sys2Proof
end

section
/-! SUPPORT. The state and its whole-machine rules (10_state.md): each is read off the cases of a step
(`StepCase`) and of an instruction (`Effect`). -/

namespace Sys2Proof.Machine

/-- The cases of a step, for a next state that is already named. -/
theorem stepCase_of_step {s t : State} (h : step s = .next t) : StepCase s t := by
  obtain ⟨t', ht', hc⟩ := step_cases s
  rw [ht'] at h
  cases h
  exact hc

theorem fetchWord_eq (s : State) : s.fetchWord = s.memRead s.pc := rfl

/-! ## The invariant -/

/-- A running block that meets the invariant has no fault record. -/
theorem State.Inv.fault_eq_none {s : State} (hs : s.Inv) (running : s.halt ≠ .fault) : s.fault = none := by
  rw [← Option.not_isSome_iff_eq_none, ← hs.faultRecorded]
  exact running

theorem fetched_pc_even {s : State} (good : s.fetchable = true) : s.fetched.pc.toNat % 2 = 0 := by
  have aligned := ((fetchable_iff s).mp good).1
  exact add_even (x := s.pc) (by omega) rfl

/-- The state an instruction executes in meets the invariant. -/
theorem inv_fetched {s : State} (hs : s.Inv) (running : s.halt = .none) (good : s.fetchable = true) :
    s.fetched.Inv :=
  { hs with
    pcEven := fetched_pc_even good
    ppcAligned := ((fetchable_iff s).mp good).1
    faultTruthful := by simp [hs.fault_eq_none, running]
    fresh := by simp }

theorem inv_fetchFault {s : State} (hs : s.Inv) (bad : s.fetchable = false) : s.fetchFault.Inv :=
  { hs with
    faultRecorded := by simp
    faultTruthful := by
      rintro f ⟨⟩
      exact ⟨fun _ => ⟨rfl, rfl, bad⟩, fun h => absurd rfl h⟩
    gapHalt := by simp
    fresh := by simp }

theorem inv_decodeGap {s : State} (hs : s.Inv) (running : s.halt = .none) (started : s.started = true) :
    s.decodeGap.Inv :=
  { hs with
    faultRecorded := by cases h : s.params.haltOnGap <;> simp [h, running, hs.fault_eq_none]
    gapHalt := by simp [running]
    fresh := by simp [started] }

/-- A register write and an even target keep the invariant (R21, R139). -/
theorem inv_write {s : State} (hs : s.Inv) (running : s.halt = .none) (started : s.started = true) {target : Word}
    (even : target.toNat % 2 = 0) (rd : Reg) (v : Word) : ((s.setPc target).setReg rd v).Inv where
  memWf := by simpa using hs.memWf
  memBacked := by simpa using hs.memBacked
  x0Zero := by simpa using hs.x0Zero
  pcEven := by simpa using even
  ppcAligned := by simpa using hs.ppcAligned
  faultRecorded := by simpa using hs.faultRecorded
  faultTruthful := by simp [hs.fault_eq_none, running]
  gapHalt := by simp [running]
  fresh := by simp [started]

theorem inv_memWrite {s : State} (hs : s.Inv) (started : s.started = true) {a : Word} (backed : s.inRange a = true)
    (v : Word) : (s.memWrite a v).Inv :=
  { hs with
    memWf := wf_memWrite hs.memWf a v
    memBacked := below_memWrite hs.memBacked backed v
    fresh := by simp [started] }

theorem inv_print {s : State} (hs : s.Inv) (started : s.started = true) (bytes : List Byte) : (s.print bytes).Inv :=
  { hs with fresh := by simp [started] }

theorem inv_exit {s : State} (hs : s.Inv) (running : s.halt = .none) (started : s.started = true) : s.exit.Inv :=
  { hs with
    faultRecorded := by simp [hs.fault_eq_none, running]
    gapHalt := by simp
    fresh := by simp [started] }

theorem inv_raise {s : State} (hs : s.Inv) (started : s.started = true) {kind : FaultKind} (hk : kind ≠ .fetch)
    {a : Word} (outside : s.params.memBytes ≤ a.toNat) : (s.raise kind s.ppc a).Inv :=
  { hs with
    faultRecorded := by simp
    faultTruthful := by
      rintro f ⟨⟩
      exact ⟨fun h => absurd h hk, fun _ => ⟨rfl, outside⟩⟩
    gapHalt := by simp
    fresh := by simp [started] }

/-- Instructions raise no FETCH fault (R182). -/
theorem FaultCause.kind_ne_fetch {i : Instr} {s : State} {kind : FaultKind} (h : FaultCause i s kind) :
    kind ≠ .fetch := by
  obtain ⟨rfl, -⟩ | ⟨rfl, -⟩ | ⟨rfl, -⟩ := h <;> decide

/-- Every effect of a well-formed instruction keeps the invariant. -/
theorem inv_effect {i : Instr} {s t : State} (hs : s.Inv) (running : s.halt = .none) (started : s.started = true)
    (hi : i.wf = true) (effect : Effect i s t) : t.Inv := by
  cases effect with
  | write rd v target even dest straight =>
    have hppc := hs.ppcAligned
    exact inv_write hs running started (even hi hs.pcEven (by omega)) rd v
  | store a v backed op address => exact inv_memWrite hs started backed v
  | print bytes op number => exact inv_print hs started bytes
  | exit op number => exact inv_exit hs running started
  | fault kind a cause outside => exact inv_raise hs started cause.kind_ne_fetch outside

/-- Settles O16: a fetch that succeeds, a fetch fault, a gap and every effect of a decoded instruction keep the
invariant. -/
theorem stepKeepsInvariant : Obligations.StepKeepsInvariant := by
  intro s t hs hstep
  cases stepCase_of_step hstep with
  | halted stopped => exact hs
  | unfetchable running bad => exact inv_fetchFault hs bad
  | gap g running good word => exact inv_decodeGap (inv_fetched hs running good) running rfl
  | instr i _ running good word effect =>
    exact inv_effect (inv_fetched hs running good) running rfl (wf_of_decodeWord word) effect

/-! ## What a step leaves unchanged -/

/-- Settles O19: the one effect that changes the console appends to it. -/
theorem consoleIsAppendOnly : Obligations.ConsoleIsAppendOnly := by
  intro s t hstep
  cases stepCase_of_step hstep with
  | halted stopped => simp
  | unfetchable running bad => simp
  | gap g running good word => simp
  | instr i _ running good word effect =>
    cases effect with
    | write rd v target even dest straight => simp
    | store a v backed op address => simp
    | print bytes op number =>
      subst op
      exact ⟨by simp, fun _ => ⟨word, by simpa using number⟩⟩
    | exit op number => simp
    | fault kind a cause outside => simp

/-- A step that changes memory is a store to a backed slot. -/
theorem step_mem {s t : State} (h : step s = .next t) :
    t.mem = s.mem ∨ ∃ i a v, s.halt = .none ∧ s.fetchable = true ∧ decodeWord (s.memRead s.pc) = .ok i ∧
      storeAddress s i = some a ∧ a.toNat < s.params.memBytes ∧ t.mem = s.mem.writeSlot (slotIndex a) v := by
  cases stepCase_of_step h with
  | halted stopped => exact .inl rfl
  | unfetchable running bad => exact .inl rfl
  | gap g running good word => exact .inl rfl
  | instr i _ running good word effect =>
    cases effect with
    | write rd v target even dest straight => exact .inl (by simp)
    | store a v backed op address =>
      exact .inr ⟨i, a, v, running, good, word, by simpa using address, (inRange_iff s a).mp backed, rfl⟩
    | print bytes op number => exact .inl rfl
    | exit op number => exact .inl rfl
    | fault kind a cause outside => exact .inl rfl

/-- Settles O20: a step writes one slot, that of the address its store computes, or no slot. -/
theorem onlyStoresChangeMemory : Obligations.OnlyStoresChangeMemory := by
  intro s t hstep
  obtain same | ⟨i, a, v, running, good, word, address, backed, written⟩ := step_mem hstep
  · exact ⟨fun _ _ _ _ _ b _ => congrArg (·.readByte b) same, fun _ b => congrArg (·.readByte b) same⟩
  · obtain ⟨aligned, inside⟩ := (fetchable_iff s).mp good
    refine ⟨fun i' a' word' address' _ b outside => ?_, fun no_store => ?_⟩
    · cases word.symm.trans word'
      cases address.symm.trans address'
      rw [written]
      exact readByte_writeSlot_other outside
    · have := no_store i a running aligned inside word address
      omega

/-- Settles O21: `getReg_setReg` for the one effect that writes a register. -/
theorem onlyTheDestinationRegisterChanges : Obligations.OnlyTheDestinationRegisterChanges := by
  intro s t r hstep changed
  cases stepCase_of_step hstep with
  | halted stopped => exact absurd rfl changed
  | unfetchable running bad => exact absurd (getReg_fetchFault s r) changed
  | gap g running good word => exact absurd rfl changed
  | instr i _ running good word effect =>
    refine ⟨i, running, word, ?_⟩
    cases effect with
    | write rd v target even dest straight =>
      obtain ⟨rfl, nonzero⟩ : r = rd ∧ r ≠ 0 := by
        by_contra h
        exact changed (by simp [getReg_setReg, h])
      exact dest.resolve_left nonzero
    | store a v backed op address => exact absurd rfl changed
    | print bytes op number => exact absurd rfl changed
    | exit op number => exact absurd rfl changed
    | fault kind a cause outside => exact absurd rfl changed

/-- No effect of an instruction marks a gap. -/
theorem effect_gapSeen {i : Instr} {s t : State} (effect : Effect i s t) : t.gapSeen = s.gapSeen := by
  cases effect <;> simp

@[simp] theorem load_gapSeen (s : State) (j : Nat) (v : Word) : (s.load j v).1.gapSeen = s.gapSeen := by
  unfold State.load
  split <;> rfl

/-- Settles O22: a step marks a gap in the one case whose word no row matches. -/
theorem gapSeenIsSticky : Obligations.GapSeenIsSticky := by
  refine ⟨fun s t hstep => ?_, fun s j v _ => load_gapSeen s j v, fun s => rfl⟩
  cases stepCase_of_step hstep with
  | halted stopped => simp [stopped]
  | unfetchable running bad =>
    have := (fetchable_eq_false s).mp bad
    simp only [fetchFault_gapSeen, iff_self_or]
    rintro ⟨-, aligned, inside, -⟩
    omega
  | gap g running good word =>
    obtain ⟨aligned, inside⟩ := (fetchable_iff s).mp good
    exact iff_of_true rfl (.inr ⟨running, aligned, inside, (decodeWord_error_iff _).mp ⟨g, word⟩⟩)
  | instr i _ running good word effect =>
    rw [effect_gapSeen effect, fetched_gapSeen, iff_self_or]
    rintro ⟨-, -, -, unmatched⟩
    have := unmatched i.op
    rw [← fetchWord_eq, (decodeWord_ok word).2] at this
    cases this

theorem effect_ppc {i : Instr} {s t : State} (effect : Effect i s t) : t.ppc = s.ppc := by
  cases effect <;> simp

theorem effect_pc {i : Instr} {s t : State} (effect : Effect i s t) : t.pc = s.pc ∨ i.op ∈ controlOps := by
  cases effect with
  | write rd v target even dest straight => simpa using straight
  | store | print | exit | fault => exact .inl rfl

/-- Settles O23: the fetch writes `ppc` and advances `pc`, and only a branch or a jump then writes `pc`. -/
theorem fetchAdvancesThePc : Obligations.FetchAdvancesThePc := by
  intro s t hstep running aligned inside
  have next : s.fetched.pc.toNat = (s.pc.toNat + 4) % 2 ^ 32 := BitVec.toNat_add _ _
  cases stepCase_of_step hstep with
  | halted stopped => exact absurd running stopped
  | unfetchable _ bad =>
    have := (fetchable_eq_false s).mp bad
    omega
  | gap g _ good word => exact ⟨rfl, .inl next⟩
  | instr i _ _ good word effect =>
    refine ⟨effect_ppc effect, ?_⟩
    obtain same | control := effect_pc effect
    · exact .inl (same ▸ next)
    · exact .inr ⟨i, word, control⟩

/-! ## Canonical memories -/

/-- A canonical memory lists exactly the cells whose address it lists and whose byte is what that address reads as. -/
theorem mem_iff_listed_and_read {m : Memory} (hm : m.wf) (a : Nat) (b : Byte) :
    (a, b) ∈ m ↔ (∃ b', (a, b') ∈ m) ∧ m.readByte a = b := by
  constructor
  · exact fun h => ⟨⟨b, h⟩, readByte_of_mem hm h⟩
  · rintro ⟨⟨b', h⟩, hb⟩
    obtain rfl : b' = b := (readByte_of_mem hm h).symm.trans hb
    exact h

/-- Settles O38: both memories are the strictly rising list of the same cells. -/
theorem canonicalMemoriesReadingAlikeAreEqual : Obligations.CanonicalMemoriesReadingAlikeAreEqual := by
  intro m m' hm hm' listed alike
  have same : ∀ c : Host.Cell, c ∈ m ↔ c ∈ m' := fun ⟨a, b⟩ => by
    rw [mem_iff_listed_and_read hm, mem_iff_listed_and_read hm', listed a, alike a]
  have : Std.Irrefl (fun c d : Host.Cell => c.1 < d.1) := ⟨fun c => Nat.lt_irrefl c.1⟩
  exact hm.eq_of_mem_iff hm' same

/-! ## Registers and reset -/

/-- Settles O7: `getReg_setReg` at each register. -/
theorem registerReadAfterWrite : Obligations.RegisterReadAfterWrite := by
  intro s i r v
  refine ⟨getReg_zero s, setReg_zero s v, fun hr => ?_, fun hr => ?_, getReg_zero _⟩
  · simp [getReg_setReg, hr]
  · simp [getReg_setReg, hr]

/-- The registers of a launch state (R22): the two presets, and 0 everywhere else. -/
theorem getReg_launch (p : Params) (m : Memory) (r : Reg) :
    (State.launch p m).getReg r = if r = 2 then p.spReset else if r = 3 then p.gpReset else 0#32 := by
  fin_cases r <;> rfl

/-- Settles O9: the launch state with the default parameters. -/
theorem powerOnRegisterValues : Obligations.PowerOnRegisterValues := by
  have regs := getReg_launch Params.default []
  refine ⟨regs 2, regs 3, fun r h2 h3 => ?_, rfl, rfl, rfl, rfl, rfl, rfl, rfl⟩
  rw [State.reset, regs, if_neg h2, if_neg h3]

/-! ## The previous `pc` -/

/-- The fetch overwrites `ppc` before anything reads it. -/
theorem fetched_of_ppc (s : State) (x : Word) : ({ s with ppc := x } : State).fetched = s.fetched := rfl

/-- Settles O26: both steps go on from the same fetched state with the same word. -/
theorem oldPreviousPcIsUnobservable : Obligations.OldPreviousPcIsUnobservable := by
  intro s x running aligned inside
  have good : s.fetchable = true := (fetchable_iff s).mpr ⟨aligned, inside⟩
  have good' : ({ s with ppc := x } : State).fetchable = true := good
  cases word : decodeWord s.fetchWord with
  | error g => rw [step_gap running good word, step_gap (s := { s with ppc := x }) running good' word, fetched_of_ppc]
  | ok i => rw [step_instr running good word, step_instr (s := { s with ppc := x }) running good' word, fetched_of_ppc]

end Sys2Proof.Machine
end

section
/-! SUPPORT. Memory as 20_memory.md gives it: slots are little-endian (R48), and instructions are fetched from the same
slots that stores write (R56). -/

namespace Sys2Proof.Machine

/-! ## Slots are little-endian -/

/-- Appending below a word shifts it up. -/
theorem toNat_append_eq_add {m n : Nat} (x : BitVec m) (y : BitVec n) : (x ++ y).toNat = 2 ^ n * x.toNat + y.toNat := by
  rw [BitVec.toNat_append, ← Nat.shiftLeft_add_eq_or_of_lt y.isLt, Nat.shiftLeft_eq, Nat.mul_comm]

/-- The value of the slot that four image bytes make (R48). -/
theorem wordOfBytes_toNat (b0 b1 b2 b3 : Byte) : (wordOfBytes b0 b1 b2 b3).toNat =
    b0.toNat + 2 ^ 8 * b1.toNat + 2 ^ 16 * b2.toNat + 2 ^ 24 * b3.toNat := by
  simp only [wordOfBytes, toNat_append_eq_add]
  omega

/-- `lane_wordOfBytes` for a lane number that is not yet known. -/
theorem lane_wordOfBytes_eq_getElem? (b0 b1 b2 b3 : Byte) {k : Nat} (hk : k < 4) :
    some ((wordOfBytes b0 b1 b2 b3 >>> (8 * k)).extractLsb' 0 8) = [b0, b1, b2, b3][k]? := by
  obtain ⟨lane0, lane1, lane2, lane3⟩ := lane_wordOfBytes b0 b1 b2 b3
  match k, hk with
  | 0, _ => exact congrArg some lane0
  | 1, _ => exact congrArg some lane1
  | 2, _ => exact congrArg some lane2
  | 3, _ => exact congrArg some lane3

/-- A load before the first step, of a slot that exists (R100). -/
theorem load_accepted {s : State} {j : Nat} (fresh : s.started = false) (hj : j < s.params.memWords.val) (v : Word) :
    s.load j v = ({ s with mem := s.mem.writeSlot j v }, .accepted) := if_pos ⟨fresh, hj⟩

/-- Every address of a loaded slot reads the loaded word (R46). -/
theorem memRead_load {s : State} {a : Word} (fresh : s.started = false) (ha : slotIndex a < s.params.memWords.val)
    (v : Word) : (s.load (slotIndex a) v).1.memRead a = v := by
  rw [load_accepted fresh ha]
  exact readSlot_writeSlot_same _ _ _

/-- Settles O50: the loaded slot reads as its word, and the byte view shifts the wanted lane of it down. -/
theorem slotsAreLittleEndian : Obligations.SlotsAreLittleEndian := by
  refine ⟨wordOfBytes_toNat, fun s j k b0 b1 b2 b3 a fresh hj hk ha => ?_⟩
  obtain rfl : slotIndex a = j := by rw [slotIndex_eq]; omega
  have lane : a.toNat % 4 = k := by omega
  have word := memRead_load fresh hj (wordOfBytes b0 b1 b2 b3)
  refine ⟨?_, word⟩
  rw [State.byteView, word, lane]
  exact lane_wordOfBytes_eq_getElem? b0 b1 b2 b3 hk

/-! ## Stores and the instruction stream -/

theorem memBytes_eq (p : Params) : p.memBytes = 4 * p.memWords.val := rfl

/-- Memory ends within the address space, so the `pc` does not wrap on its way to a backed slot. -/
theorem next_pc_toNat {s : State} (h : s.pc.toNat + 4 < s.params.memBytes) : (s.pc + 4#32).toNat = s.pc.toNat + 4 := by
  have bound := s.params.memWords.isLt
  have size := memBytes_eq s.params
  exact BitVec.toNat_add_of_lt (show s.pc.toNat + 4 < 2 ^ 32 by omega)

/-- The address after a fetched instruction is fetchable where a slot is backed there (R91). -/
theorem fetchable_fetched {s : State} (aligned : s.pc.toNat % 4 = 0) (inside : s.pc.toNat + 4 < s.params.memBytes) :
    s.fetched.fetchable = true := by
  rw [fetchable_iff, fetched_pc, next_pc_toNat inside, fetched_params]
  omega

/-- A store into the slot at `pc` is fetched (R56). -/
theorem fetchWord_memWrite {s : State} {a v : Word} (h : slotIndex s.pc = slotIndex a) :
    (s.memWrite a v).fetchWord = v := memRead_memWrite_same s a s.pc v h

/-- A step that executes SW to a backed address (R92, R125). -/
theorem step_sw {s : State} {rs1 rs2 : Reg} {imm : Word} (running : s.halt = .none) (good : s.fetchable = true)
    (word : decodeWord s.fetchWord = .ok (.sw rs1 rs2 imm)) (backed : s.inRange (s.effectiveAddress rs1 imm) = true) :
    step s = .next (s.fetched.memWrite (s.effectiveAddress rs1 imm) (s.getReg rs2)) :=
  calc step s
    _ = .next (storeValue rs1 imm (s.getReg rs2) s.fetched) := step_instr running good word
    _ = .next (s.fetched.memWrite (s.effectiveAddress rs1 imm) (s.getReg rs2)) :=
      congrArg _ (storeValue_inRange backed)

/-- Settles O37: the store and the next fetch select one slot, and a slot reads as it was last written. -/
theorem storedWordIsFetchedNext : Obligations.StoredWordIsFetchedNext := by
  intro s rs1 rs2 imm running aligned inside word nextSlot
  have next := next_pc_toNat inside
  have good : s.fetchable = true := (fetchable_iff s).mpr ⟨aligned, by omega⟩
  have backed : s.inRange (s.effectiveAddress rs1 imm) = true := by
    have size := memBytes_eq s.params
    rw [inRange_iff]
    omega
  have nextGood := fetchable_fetched aligned inside
  have fetched : (s.fetched.memWrite (s.effectiveAddress rs1 imm) (s.getReg rs2)).fetchWord = s.getReg rs2 :=
    fetchWord_memWrite (by rw [slotIndex_eq, slotIndex_eq, fetched_pc]; omega)
  exact ⟨_, step_sw running good word backed, running, nextGood, rfl, fetched,
    fun i hi => step_instr running nextGood (by rwa [fetched])⟩

end Sys2Proof.Machine
end

section
/-! SUPPORT. The round trip between words and instructions (30_encoding.md R62 to R68, R75): each layout gives its
fields back, and a word's fields laid out again give the word. -/

namespace Sys2Proof

/-! ## The bits of an immediate (R63 to R67) -/

theorem getLsbD_immI (w : Word) {k : Nat} (hk : k < 32) :
    (immI w).getLsbD k = w.getLsbD (if k < 11 then k + 20 else 31) := by
  simp only [immI, BitVec.getLsbD_signExtend, BitVec.msb_eq_getLsbD_last, BitVec.getLsbD_extractLsb']
  grind

theorem getLsbD_immS (w : Word) {k : Nat} (hk : k < 32) :
    (immS w).getLsbD k = w.getLsbD (if k < 5 then k + 7 else if k < 11 then k + 20 else 31) := by
  simp only [immS, BitVec.getLsbD_signExtend, BitVec.msb_eq_getLsbD_last, BitVec.getLsbD_append,
    BitVec.getLsbD_extractLsb']
  grind

theorem getLsbD_immB (w : Word) {k : Nat} (hk : k < 32) : (immB w).getLsbD k = if k = 0 then false
    else w.getLsbD (if k < 5 then k + 7 else if k < 11 then k + 20 else if k = 11 then 7 else 31) := by
  simp only [immB, BitVec.getLsbD_signExtend, BitVec.msb_eq_getLsbD_last, BitVec.getLsbD_append,
    BitVec.getLsbD_extractLsb']
  grind

theorem getLsbD_immU (w : Word) {k : Nat} (hk : k < 32) :
    (immU w).getLsbD k = if k < 12 then false else w.getLsbD k := by
  simp only [immU, BitVec.getLsbD_append, BitVec.getLsbD_extractLsb']
  grind

theorem getLsbD_immJ (w : Word) {k : Nat} (hk : k < 32) : (immJ w).getLsbD k = if k = 0 then false
    else w.getLsbD (if k < 11 then k + 20 else if k = 11 then 20 else if k < 20 then k else 31) := by
  simp only [immJ, BitVec.getLsbD_signExtend, BitVec.msb_eq_getLsbD_last, BitVec.getLsbD_append,
    BitVec.getLsbD_extractLsb']
  grind

/-- Settles O4: the bits of each immediate, and the range of its family. -/
theorem immediateBitsAndRanges : Obligations.ImmediateBitsAndRanges := fun w =>
  ⟨fun _ => getLsbD_immI w, fun _ => getLsbD_immS w, fun _ => getLsbD_immB w, fun _ => getLsbD_immU w,
    fun _ => getLsbD_immJ w, fits12_immI w, fits12_immS w, fitsB_immB w, fitsU_immU w, fitsJ_immJ w⟩

/-! ## A value in range is the extension of its low bits (R68) -/

/-- Two's complement: a value of `n` signed bits is the sign extension of its low `n` bits. -/
theorem signExtend_extractLsb'_of_fits {v : Word} {n : Nat} (hn : n ≤ 32) (lo : -((2 ^ n : Nat) / 2) ≤ v.toInt)
    (hi : v.toInt < ((2 ^ n : Nat) + 1) / 2) : (v.extractLsb' 0 n).signExtend 32 = v := by
  apply BitVec.eq_of_toInt_eq
  rw [BitVec.toInt_signExtend_of_le hn, ← BitVec.setWidth_eq_extractLsb' hn,
    ← BitVec.signExtend_eq_setWidth_of_le _ hn, BitVec.toInt_signExtend_eq_toInt_bmod_of_le _ hn, Int.bmod_eq_of_le lo hi]

/-- Bit 0 of an even value is 0. -/
theorem extractLsb'_append_zero_of_even {v : Word} (even : v.toInt % 2 = 0) (n : Nat) :
    v.extractLsb' 1 n ++ 0#1 = v.extractLsb' 0 (n + 1) := by
  have bit0 : v.extractLsb' 0 1 = 0#1 := by
    have value := BitVec.toInt_eq_toNat_cond v
    have low : v.toNat % 2 = 0 := by split at value <;> omega
    exact BitVec.eq_of_toNat_eq (by simpa using low)
  rw [← bit0, BitVec.extractLsb'_append_extractLsb'_eq_extractLsb' (Nat.zero_add 1).symm]

/-- A value with zeros in its low 12 bits is its upper 20 bits with zeros below. -/
theorem extractLsb'_append_zeros_of_fitsU {v : Word} (hv : fitsU v = true) : v.extractLsb' 12 20 ++ 0#12 = v := by
  have low : v.extractLsb' 0 12 = 0#12 := by
    apply BitVec.eq_of_toNat_eq
    rw [BitVec.extractLsb'_toNat, Nat.shiftRight_zero]
    exact of_decide_eq_true hv
  rw [← low, BitVec.extractLsb'_append_extractLsb'_eq_extractLsb' (Nat.zero_add 12).symm]
  exact BitVec.extractLsb'_eq_self

theorem signExtend_of_fits12 {v : Word} (hv : fits12 v = true) : (v.extractLsb' 0 12).signExtend 32 = v := by
  simp only [fits12, Bool.and_eq_true, decide_eq_true_eq] at hv
  exact signExtend_extractLsb'_of_fits (by decide) (by omega) (by omega)

theorem signExtend_of_fitsB {v : Word} (hv : fitsB v = true) : (v.extractLsb' 1 12 ++ 0#1).signExtend 32 = v := by
  simp only [fitsB, Bool.and_eq_true, decide_eq_true_eq] at hv
  rw [extractLsb'_append_zero_of_even hv.2]
  exact signExtend_extractLsb'_of_fits (by decide) (by omega) (by omega)

theorem signExtend_of_fitsJ {v : Word} (hv : fitsJ v = true) : (v.extractLsb' 1 20 ++ 0#1).signExtend 32 = v := by
  simp only [fitsJ, Bool.and_eq_true, decide_eq_true_eq] at hv
  rw [extractLsb'_append_zero_of_even hv.2]
  exact signExtend_extractLsb'_of_fits (by decide) (by omega) (by omega)

/-! ## The immediate of a layout (R68) -/

section
variable {imm : Word} {rs2 rs1 rd : Reg} {funct3 : BitVec 3} {opcode : BitVec 7}

@[simp] theorem immI_packI (h : fits12 imm = true) : immI (packI imm rs1 funct3 rd opcode) = imm := by
  simp (disch := omega) only [immI, packI, BitVec.extractLsb'_append_eq_of_le, Nat.reduceSub,
    BitVec.extractLsb'_eq_self]
  exact signExtend_of_fits12 h

@[simp] theorem immS_packS (h : fits12 imm = true) : immS (packS imm rs2 rs1 funct3 opcode) = imm := by
  simp (disch := omega) only [immS, packS, BitVec.extractLsb'_append_eq_of_le, BitVec.extractLsb'_append_eq_of_add_le,
    Nat.reduceSub, BitVec.extractLsb'_eq_self, BitVec.extractLsb'_append_extractLsb'_eq_extractLsb']
  exact signExtend_of_fits12 h

@[simp] theorem immB_packB (h : fitsB imm = true) : immB (packB imm rs2 rs1 funct3 opcode) = imm := by
  simp (disch := omega) only [immB, packB, BitVec.extractLsb'_append_eq_of_le, BitVec.extractLsb'_append_eq_of_add_le,
    Nat.reduceSub, BitVec.extractLsb'_eq_self, BitVec.extractLsb'_append_extractLsb'_eq_extractLsb']
  exact signExtend_of_fitsB h

@[simp] theorem immU_packU (h : fitsU imm = true) : immU (packU imm rd opcode) = imm := by
  simp (disch := omega) only [immU, packU, BitVec.extractLsb'_append_eq_of_le, Nat.reduceSub,
    BitVec.extractLsb'_eq_self]
  exact extractLsb'_append_zeros_of_fitsU h

@[simp] theorem immJ_packJ (h : fitsJ imm = true) : immJ (packJ imm rd opcode) = imm := by
  simp (disch := omega) only [immJ, packJ, BitVec.extractLsb'_append_eq_of_le, BitVec.extractLsb'_append_eq_of_add_le,
    Nat.reduceSub, BitVec.extractLsb'_eq_self, BitVec.extractLsb'_append_extractLsb'_eq_extractLsb']
  exact signExtend_of_fitsJ h

end

/-- The sign extension of a 12-bit value keeps its signed value (R15). -/
theorem toInt_sext_12 (v : BitVec 12) : (sext 12 (v.setWidth 32)).toInt = v.toInt := by
  rw [sext, BitVec.setWidth_setWidth_of_le _ (by decide), BitVec.setWidth_eq]
  exact BitVec.toInt_signExtend_of_le (by decide)

/-- Settles O5: a value in range is the extension of the bits its layout keeps. -/
theorem immediateRoundTrip : Obligations.ImmediateRoundTrip := by
  refine ⟨fun v r1 r2 f o => ⟨fun h => ⟨immI_packI h, immS_packS h⟩, fun h => immB_packB h,
    fun h => immU_packU h, fun h => immJ_packJ h⟩, fun v => ⟨toInt_sext_12 v, BitVec.le_toInt v, ?_⟩⟩
  have := BitVec.toInt_lt (x := v)
  omega

/-! ## The fields of a layout (R62, R69) -/

theorem toFin_regBits (r : Reg) : (regBits r).toFin = r := rfl
theorem regBits_toFin (b : BitVec 5) : regBits b.toFin = b := rfl

section
variable {imm : Word} {shamt : BitVec 5} {rs2 rs1 rd : Reg} {funct7 : BitVec 7} {funct3 : BitVec 3}
  {opcode : BitVec 7}

theorem fieldsOf_packR :
    let d := fieldsOf (packR funct7 rs2 rs1 funct3 rd opcode)
    d.opcode = opcode ∧ d.rd = rd ∧ d.funct3 = funct3 ∧ d.rs1 = rs1 ∧ d.rs2 = rs2 ∧ d.funct7 = funct7 := by
  simp (disch := omega) only [fieldsOf, packR, BitVec.extractLsb'_append_eq_of_le,
    BitVec.extractLsb'_append_eq_of_add_le, Nat.reduceSub, BitVec.extractLsb'_eq_self, toFin_regBits, and_self]

theorem fieldsOf_packShift :
    let d := fieldsOf (packShift funct7 shamt rs1 funct3 rd opcode)
    d.opcode = opcode ∧ d.rd = rd ∧ d.funct3 = funct3 ∧ d.rs1 = rs1 ∧ d.shamt = shamt ∧ d.funct7 = funct7 := by
  simp (disch := omega) only [fieldsOf, packShift, BitVec.extractLsb'_append_eq_of_le,
    BitVec.extractLsb'_append_eq_of_add_le, Nat.reduceSub, BitVec.extractLsb'_eq_self, toFin_regBits, and_self]

theorem fieldsOf_packI (h : fits12 imm = true) :
    let d := fieldsOf (packI imm rs1 funct3 rd opcode)
    d.opcode = opcode ∧ d.rd = rd ∧ d.funct3 = funct3 ∧ d.rs1 = rs1 ∧ d.immI = imm := by
  simp (disch := omega) only [fieldsOf, packI, BitVec.extractLsb'_append_eq_of_le,
    BitVec.extractLsb'_append_eq_of_add_le, Nat.reduceSub, BitVec.extractLsb'_eq_self, toFin_regBits, true_and]
  exact immI_packI h

theorem fieldsOf_packS (h : fits12 imm = true) :
    let d := fieldsOf (packS imm rs2 rs1 funct3 opcode)
    d.opcode = opcode ∧ d.funct3 = funct3 ∧ d.rs1 = rs1 ∧ d.rs2 = rs2 ∧ d.immS = imm := by
  simp (disch := omega) only [fieldsOf, packS, BitVec.extractLsb'_append_eq_of_le,
    BitVec.extractLsb'_append_eq_of_add_le, Nat.reduceSub, BitVec.extractLsb'_eq_self, toFin_regBits, true_and]
  exact immS_packS h

theorem fieldsOf_packB (h : fitsB imm = true) :
    let d := fieldsOf (packB imm rs2 rs1 funct3 opcode)
    d.opcode = opcode ∧ d.funct3 = funct3 ∧ d.rs1 = rs1 ∧ d.rs2 = rs2 ∧ d.immB = imm := by
  simp (disch := omega) only [fieldsOf, packB, BitVec.extractLsb'_append_eq_of_le,
    BitVec.extractLsb'_append_eq_of_add_le, Nat.reduceSub, BitVec.extractLsb'_eq_self, toFin_regBits, true_and]
  exact immB_packB h

theorem fieldsOf_packU (h : fitsU imm = true) :
    let d := fieldsOf (packU imm rd opcode)
    d.opcode = opcode ∧ d.rd = rd ∧ d.immU = imm := by
  simp (disch := omega) only [fieldsOf, packU, BitVec.extractLsb'_append_eq_of_le,
    BitVec.extractLsb'_append_eq_of_add_le, Nat.reduceSub, BitVec.extractLsb'_eq_self, toFin_regBits, true_and]
  exact immU_packU h

theorem fieldsOf_packJ (h : fitsJ imm = true) :
    let d := fieldsOf (packJ imm rd opcode)
    d.opcode = opcode ∧ d.rd = rd ∧ d.immJ = imm := by
  simp (disch := omega) only [fieldsOf, packJ, BitVec.extractLsb'_append_eq_of_le,
    BitVec.extractLsb'_append_eq_of_add_le, Nat.reduceSub, BitVec.extractLsb'_eq_self, toFin_regBits, true_and]
  exact immJ_packJ h

end

/-- Settles O1: the dispatch tree reads the fields that select the row, and then the operands, from the layout. -/
theorem decodeOfEncodeIsTheInstruction : Obligations.DecodeOfEncodeIsTheInstruction := by
  intro i hi
  cases i
  case lui | auipc => simp only [encode, decodeWord, fieldsOf_packU hi, familyOf]
  case jal => simp only [encode, decodeWord, fieldsOf_packJ hi, familyOf]
  case lb | lh | lw | lbu | lhu => simp only [encode, decodeWord, fieldsOf_packI hi, familyOf, selectLoad]
  case sb | sh | sw => simp only [encode, decodeWord, fieldsOf_packS hi, familyOf, selectStore]
  case beq | bne | blt | bge | bltu | bgeu =>
    simp only [encode, decodeWord, fieldsOf_packB hi, familyOf, selectBranch]
  case jalr => simp only [encode, decodeWord, fieldsOf_packI hi, familyOf, selectJalr]
  case addi | ori | slti | xori | andi | sltiu =>
    simp only [encode, decodeWord, fieldsOf_packI hi, familyOf, selectOpImm]
  case slli | srli | srai => simp only [encode, decodeWord, fieldsOf_packShift, familyOf, selectOpImm]
  case add | sub | sll | slt | sltu | xor | srl | sra | or | and =>
    simp only [encode, decodeWord, fieldsOf_packR, familyOf, selectOp]
  case ecall => rfl

/-! ## A word is the layout of its own fields (R61, R62) -/

/-- The low bits of a sign extension are those of the value. -/
theorem extractLsb'_signExtend {n start len : Nat} (v : BitVec n) (hn : n ≤ 32) (h : start + len ≤ n) :
    (v.signExtend 32).extractLsb' start len = v.extractLsb' start len := by
  apply BitVec.eq_of_getLsbD_eq
  intro k hk
  simp only [BitVec.getLsbD_extractLsb', BitVec.getLsbD_signExtend]
  grind

section
variable {w : Word} {funct7 : BitVec 7} {funct3 : BitVec 3} {opcode : BitVec 7}

theorem packR_fieldsOf (ho : (fieldsOf w).opcode = opcode) (h3 : (fieldsOf w).funct3 = funct3)
    (h7 : (fieldsOf w).funct7 = funct7) :
    packR funct7 (fieldsOf w).rs2 (fieldsOf w).rs1 funct3 (fieldsOf w).rd opcode = w := by
  subst ho h3 h7
  simp (disch := omega) only [packR, fieldsOf, regBits_toFin, BitVec.extractLsb'_eq_self,
    BitVec.extractLsb'_append_extractLsb'_eq_extractLsb']

theorem packShift_fieldsOf (ho : (fieldsOf w).opcode = opcode) (h3 : (fieldsOf w).funct3 = funct3)
    (h7 : (fieldsOf w).funct7 = funct7) :
    packShift funct7 (fieldsOf w).shamt (fieldsOf w).rs1 funct3 (fieldsOf w).rd opcode = w := by
  subst ho h3 h7
  simp (disch := omega) only [packShift, fieldsOf, regBits_toFin, BitVec.extractLsb'_eq_self,
    BitVec.extractLsb'_append_extractLsb'_eq_extractLsb']

theorem packI_fieldsOf (ho : (fieldsOf w).opcode = opcode) (h3 : (fieldsOf w).funct3 = funct3) :
    packI (fieldsOf w).immI (fieldsOf w).rs1 funct3 (fieldsOf w).rd opcode = w := by
  subst ho h3
  simp (disch := omega) only [packI, fieldsOf, immI, regBits_toFin, extractLsb'_signExtend,
    BitVec.extractLsb'_eq_self, BitVec.extractLsb'_append_extractLsb'_eq_extractLsb']

theorem packS_fieldsOf (ho : (fieldsOf w).opcode = opcode) (h3 : (fieldsOf w).funct3 = funct3) :
    packS (fieldsOf w).immS (fieldsOf w).rs2 (fieldsOf w).rs1 funct3 opcode = w := by
  subst ho h3
  simp (disch := omega) only [packS, fieldsOf, immS, regBits_toFin, extractLsb'_signExtend,
    BitVec.extractLsb'_append_eq_of_le, BitVec.extractLsb'_append_eq_of_add_le, Nat.reduceSub,
    BitVec.extractLsb'_eq_self, BitVec.extractLsb'_append_extractLsb'_eq_extractLsb']

theorem packB_fieldsOf (ho : (fieldsOf w).opcode = opcode) (h3 : (fieldsOf w).funct3 = funct3) :
    packB (fieldsOf w).immB (fieldsOf w).rs2 (fieldsOf w).rs1 funct3 opcode = w := by
  subst ho h3
  simp (disch := omega) only [packB, fieldsOf, immB, regBits_toFin, extractLsb'_signExtend,
    BitVec.extractLsb'_append_eq_of_le, BitVec.extractLsb'_append_eq_of_add_le, Nat.reduceSub,
    BitVec.extractLsb'_eq_self, BitVec.extractLsb'_append_extractLsb'_eq_extractLsb']

theorem packU_fieldsOf (ho : (fieldsOf w).opcode = opcode) : packU (fieldsOf w).immU (fieldsOf w).rd opcode = w := by
  subst ho
  simp (disch := omega) only [packU, fieldsOf, immU, regBits_toFin, BitVec.extractLsb'_append_eq_of_le, Nat.reduceSub,
    BitVec.extractLsb'_eq_self, BitVec.extractLsb'_append_extractLsb'_eq_extractLsb']

theorem packJ_fieldsOf (ho : (fieldsOf w).opcode = opcode) : packJ (fieldsOf w).immJ (fieldsOf w).rd opcode = w := by
  subst ho
  simp (disch := omega) only [packJ, fieldsOf, immJ, regBits_toFin, extractLsb'_signExtend,
    BitVec.extractLsb'_append_eq_of_le, BitVec.extractLsb'_append_eq_of_add_le, Nat.reduceSub,
    BitVec.extractLsb'_eq_self, BitVec.extractLsb'_append_extractLsb'_eq_extractLsb']

end

section
variable {w : Word} {i : Instr}

theorem encode_of_selectOpImm (hop : (fieldsOf w).opcode = Family.opImm.opcode) (h : selectOpImm (fieldsOf w) = .ok i) :
    encode i = w := by
  unfold selectOpImm at h
  split at h
  case h_2 | h_6 =>
    split at h <;> cases h
    all_goals exact packShift_fieldsOf hop ‹_› ‹_›
  case h_9 => cases h
  all_goals
    cases h
    exact packI_fieldsOf hop ‹_›

theorem encode_of_selectOp (hop : (fieldsOf w).opcode = Family.op.opcode) (h : selectOp (fieldsOf w) = .ok i) :
    encode i = w := by
  unfold selectOp at h
  split at h
  case h_1 | h_2 =>
    split at h <;> cases h
    all_goals exact packR_fieldsOf hop ‹_› ‹_›
  case h_3 => cases h

theorem encode_of_selectSystem (h : selectSystem w = .ok i) : encode i = w := by
  unfold selectSystem at h
  split at h <;> cases h
  exact .symm ‹_›

theorem encode_of_decodeWord (h : decodeWord w = .ok i) : encode i = w := by
  simp only [decodeWord] at h
  split at h
  case h_1 => cases h
  all_goals have hop := opcode_of_familyOf ‹_›
  case h_2 | h_3 =>
    cases h
    exact packU_fieldsOf hop
  case h_4 =>
    cases h
    exact packJ_fieldsOf hop
  case h_5 | h_7 =>
    simp only [selectJalr, selectLoad] at h
    split at h <;> cases h
    all_goals exact packI_fieldsOf hop ‹_›
  case h_6 =>
    unfold selectBranch at h
    split at h <;> cases h
    all_goals exact packB_fieldsOf hop ‹_›
  case h_8 =>
    unfold selectStore at h
    split at h <;> cases h
    all_goals exact packS_fieldsOf hop ‹_›
  case h_9 => exact encode_of_selectOpImm hop h
  case h_10 => exact encode_of_selectOp hop h
  case h_11 => exact encode_of_selectSystem h

end

/-- Settles O2: a word is the layout of its own fields, and no branch of the dispatch tree drops one. -/
theorem encodeOfDecodeIsTheWord : Obligations.EncodeOfDecodeIsTheWord :=
  fun _ _ h => ⟨wf_of_decodeWord h, encode_of_decodeWord h⟩

/-! ## The decoder and the opcode table (R75, R80) -/

/-- Settles O3: each row decodes to its own instruction, so no word matches two rows. -/
theorem decoderAgreesWithOpcodeTable : Obligations.DecoderAgreesWithOpcodeTable := by
  refine ⟨fun w o => ⟨?_, decodeWord_of_matches⟩, fun w o o' h h' => ?_⟩
  · rintro ⟨i, hi, rfl⟩
    exact (decodeWord_ok hi).2
  · obtain ⟨i, hi, rfl⟩ := decodeWord_of_matches h
    obtain ⟨i', hi', rfl⟩ := decodeWord_of_matches h'
    cases hi.symm.trans hi'
    rfl

end Sys2Proof

namespace Sys2Proof.Machine

theorem stepOutcome_gap {s : State} {g : Gap} (running : s.halt = .none) (good : s.fetchable = true)
    (word : decodeWord s.fetchWord = .error g) : stepOutcome s = .gap s.fetchWord := by
  simp [stepOutcome, running, good, word]

/-- Settles O13: a word no row matches does not decode, and the step is the decode gap in the fetched state. -/
theorem decodeGapIsRecorded : Obligations.DecodeGapIsRecorded := by
  intro s running aligned inside unmatched
  have good : s.fetchable = true := (fetchable_iff s).mpr ⟨aligned, inside⟩
  obtain ⟨g, word⟩ := (decodeWord_error_iff s.fetchWord).mpr unmatched
  exact ⟨_, step_gap running good word, rfl, rfl, rfl, rfl, by simp [running], rfl, fun _ => rfl, fun _ => rfl, rfl,
    rfl, stepOutcome_gap running good word⟩

end Sys2Proof.Machine
end

section
/-! SUPPORT. The step driver (40_step_driver.md R90 to R106): what one step does and what its outcome says, the word the
loader places at the `pc`, the loader and reset, and `run`. -/

namespace Sys2Proof.Machine

/-! ## One step -/

theorem stepState_of_step {s t : State} (next : step s = .next t) : stepState s = t := by
  simp [stepState, next]

/-- No effect of an instruction touches `started`. -/
theorem effect_started {i : Instr} {s t : State} (effect : Effect i s t) : t.started = s.started := by
  cases effect <;> simp

/-- No effect of an instruction touches the parameters. -/
theorem effect_params {i : Instr} {s t : State} (effect : Effect i s t) : t.params = s.params := by
  cases effect <;> simp

/-- How an instruction halts (R29): by ECALL with the exit number, or by a fault that it records. -/
theorem effect_halt {i : Instr} {s t : State} (effect : Effect i s t) :
    t.halt = s.halt ∨ (t.halt = .exit ∧ i = .ecall ∧ s.getReg s.params.sysNumReg = 10#32) ∨
      (t.halt = .fault ∧ t.fault.isSome = true) := by
  cases effect with
  | write rd v target even dest straight => exact .inl (by simp)
  | store | print => exact .inl rfl
  | exit op number => exact .inr (.inl ⟨rfl, op, number⟩)
  | fault kind a cause outside => exact .inr (.inr ⟨rfl, rfl⟩)

/-- A step of a running block sets `started`, whatever it finds at the `pc` (R91). -/
theorem step_started {s t : State} (running : s.halt = .none) (next : step s = .next t) : t.started = true := by
  cases stepCase_of_step next with
  | halted stopped => exact absurd running stopped
  | unfetchable _ bad => rfl
  | gap g _ good word => rfl
  | instr i _ _ good word effect => exact effect_started effect

/-- No step touches the parameters (log 1). -/
theorem step_params {s t : State} (next : step s = .next t) : t.params = s.params := by
  cases stepCase_of_step next with
  | halted stopped => rfl
  | unfetchable running bad => rfl
  | gap g running good word => rfl
  | instr i _ running good word effect => exact (effect_params effect).trans (fetched_params s)

@[simp] theorem stepState_params (s : State) : (stepState s).params = s.params := step_params (step_eq_next s)

/-! ## The outcome of a step (R95) -/

theorem stepOutcome_halted {s : State} (stopped : s.halt ≠ .none) : stepOutcome s = .halted := if_neg stopped

theorem stepOutcome_unfetchable {s : State} (running : s.halt = .none) (bad : s.fetchable = false) :
    stepOutcome s = .fault s.fetchFault.fault := by
  simp [stepOutcome, running, bad, stepState_of_step (step_unfetchable running bad)]

section
variable {s t : State} {i : Instr} (running : s.halt = .none) (good : s.fetchable = true)
  (word : decodeWord s.fetchWord = .ok i) (next : step s = .next t)
include running good word next

theorem stepOutcome_ok (h : t.halt = .none) : stepOutcome s = .ok := by
  simp [stepOutcome, running, good, word, stepState_of_step next, h]

theorem stepOutcome_exit (h : t.halt = .exit) : stepOutcome s = .exit := by
  simp [stepOutcome, running, good, word, stepState_of_step next, h]

theorem stepOutcome_fault (h : t.halt = .fault) : stepOutcome s = .fault t.fault := by
  simp [stepOutcome, running, good, word, stepState_of_step next, h]

end

/-- Settles O14: the outcome of each case of a step, an instruction's by the way it halts. -/
theorem stepAlwaysAnswersWithItsOutcome : Obligations.StepAlwaysAnswersWithItsOutcome := by
  refine ⟨fun i s => (exec_effect i s).imp fun _ => And.left, fun s => ?_⟩
  obtain ⟨t, next, hc⟩ := step_cases s
  refine ⟨t, next, ?_⟩
  cases hc with
  | halted stopped =>
    rw [stepOutcome_halted stopped]
    exact ⟨stopped, rfl⟩
  | unfetchable running bad =>
    rw [stepOutcome_unfetchable running bad]
    exact ⟨running, rfl, rfl, rfl⟩
  | gap g running good word =>
    rw [stepOutcome_gap running good word]
    exact ⟨running, rfl, (decodeWord_error_iff _).mp ⟨g, word⟩, rfl, by simp [running]⟩
  | instr i _ running good word effect =>
    obtain same | ⟨exited, rfl, number⟩ | ⟨faulted, recorded⟩ := effect_halt effect
    · have running' : t.halt = .none := same.trans running
      rw [stepOutcome_ok running good word next running']
      exact ⟨running, running', (effect_gapSeen effect).trans (fetched_gapSeen s), i, word⟩
    · rw [stepOutcome_exit running good word next exited]
      exact ⟨running, exited, word, number⟩
    · rw [stepOutcome_fault running good word next faulted]
      exact ⟨running, faulted, rfl, recorded⟩

/-- Settles O11: the fetch check fails, and the step is the fetch fault. -/
theorem fetchCheckFaults : Obligations.FetchCheckFaults := by
  intro s running
  refine ⟨⟨_, step_eq_next s, step_started running (step_eq_next s)⟩, fun unbacked => ?_⟩
  have bad : s.fetchable = false := (fetchable_eq_false s).mpr unbacked
  exact ⟨_, step_unfetchable running bad, rfl, rfl, rfl, rfl, fun _ => rfl, fun _ => rfl, rfl, rfl, rfl,
    stepOutcome_unfetchable running bad⟩

/-! ## The word at the `pc` (R92, R93) -/

/-- Decoding from bytes decodes the word that the first four make, and hands back the others (R48, R60). -/
theorem decodeBytes_four (b0 b1 b2 b3 : Byte) (rest : List Byte) :
    decodeBytes (b0 :: b1 :: b2 :: b3 :: rest) = (decodeWord (wordOfBytes b0 b1 b2 b3)).map (·, rest) := by
  rw [decodeBytes]
  cases decodeWord (wordOfBytes b0 b1 b2 b3) <;> rfl

/-- A table word stands for the instruction that the decoder reads in it. -/
theorem decodeTableWord_eq_some {nbits w : Nat} {i : Instr} (h : decodeTableWord nbits w = some i) :
    decodeWord (BitVec.ofNat 32 (w % 2 ^ nbits)) = .ok i := by
  rw [decodeTableWord, bytesOf, decodeBytes_four, wordOfBytes_lanes] at h
  cases hd : decodeWord (BitVec.ofNat 32 (w % 2 ^ nbits)) with
  | error g => simp [hd, Except.map] at h
  | ok i' => simpa [hd, Except.map] using h

/-- The word at an aligned `pc` is the four bytes from it on (R44, R48). -/
theorem fetchWord_eq_wordOfBytes {s : State} (aligned : s.pc.toNat % 4 = 0) :
    s.fetchWord = wordOfBytes (s.mem.readByte s.pc.toNat) (s.mem.readByte (s.pc.toNat + 1))
      (s.mem.readByte (s.pc.toNat + 2)) (s.mem.readByte (s.pc.toNat + 3)) := by
  have base : 4 * slotIndex s.pc = s.pc.toNat := by rw [slotIndex_eq]; omega
  rw [fetchWord_eq, State.memRead, Memory.readSlot, base]

/-- Settles O12: the four bytes are the word the step decodes, and `fetched` is the state it executes in. -/
theorem stepExecutesDecodedInstruction : Obligations.StepExecutesDecodedInstruction := by
  rintro s _ _ running aligned inside rfl rfl
  have good : s.fetchable = true := (fetchable_iff s).mpr ⟨aligned, inside⟩
  simp only [decodeBytes_four, ← fetchWord_eq_wordOfBytes aligned]
  cases word : decodeWord s.fetchWord with
  | ok i =>
    refine ⟨?_, by simp [Except.map]⟩
    rintro _ ⟨⟩
    exact step_instr running good word
  | error g => exact ⟨by simp [Except.map], fun _ _ => step_gap running good word⟩

/-- Settles O15: the placed word is a store to the slot at `pc`, which is the slot the step fetches. -/
theorem placedWordIsExecuted : Obligations.PlacedWordIsExecuted := by
  intro s nbits w i running aligned inside word
  have placed : s.withFetchWord nbits w = s.memWrite s.pc (BitVec.ofNat 32 (w % 2 ^ nbits)) :=
    if_pos ((inRange_iff s s.pc).mpr inside)
  rw [placed]
  refine ⟨step_instr running ((fetchable_iff s).mpr ⟨aligned, inside⟩) ?_, fun _ => rfl, fun a outside => ?_⟩
  · rw [fetchWord_memWrite rfl]
    exact decodeTableWord_eq_some word
  · rw [← slotIndex_eq] at outside
    exact readByte_writeSlot_other outside

/-! ## The loader and reset (R100, R200) -/

/-- A load once a step has been taken, or of a slot that does not exist (R100, log 12). -/
theorem load_refused {s : State} {j : Nat} (h : s.started = true ∨ s.params.memWords.val ≤ j) (v : Word) :
    s.load j v = (s, .refused) := by
  refine if_neg ?_
  rintro ⟨fresh, hj⟩
  obtain started | beyond := h
  · simp [fresh] at started
  · omega

@[simp] theorem load_halt (s : State) (j : Nat) (v : Word) : (s.load j v).1.halt = s.halt := by
  unfold State.load
  split <;> rfl

/-- An accepted load and a refused one keep the invariant. -/
theorem inv_load {s : State} (hs : s.Inv) (j : Nat) (v : Word) : (s.load j v).1.Inv := by
  by_cases h : s.started = true ∨ s.params.memWords.val ≤ j
  · rw [load_refused h]
    exact hs
  · obtain ⟨fresh, hj⟩ := not_or.mp h
    have hj := Nat.lt_of_not_le hj
    rw [load_accepted (Bool.eq_false_of_not_eq_true fresh) hj]
    exact { hs with
      memWf := wf_writeSlot hs.memWf j v
      memBacked := below_writeSlot hs.memBacked hj v }

/-- A launch with an even `RESET_PC` and a canonical, backed image meets the invariant (R200). -/
theorem inv_launch {p : Params} {m : Memory} (even : p.resetPc.toNat % 2 = 0) (hm : m.wf)
    (backed : m.below p.memBytes) : (State.launch p m).Inv where
  memWf := hm
  memBacked := backed
  x0Zero := rfl
  pcEven := even
  ppcAligned := rfl
  faultRecorded := by simp [State.launch]
  faultTruthful := by simp [State.launch]
  gapHalt := by simp [State.launch]
  fresh := fun _ => ⟨rfl, rfl, rfl⟩

/-- Settles O18: a load writes a backed slot or nothing, and reset launches the memory it finds. -/
theorem hostOperationsKeepInvariant : Obligations.HostOperationsKeepInvariant :=
  fun _ hs => ⟨inv_load hs, fun even => inv_launch even hs.memWf hs.memBacked⟩

/-- Settles O49: `started` and the slot index decide the load, and a step of a running block sets `started`. -/
theorem loaderWritesOnlyBeforeTheFirstStep : Obligations.LoaderWritesOnlyBeforeTheFirstStep := by
  intro s j v
  refine ⟨fun fresh hj => ?_, fun started => load_refused (.inl started) v,
    fun t running next => load_refused (.inl (step_started running next)) v,
    fun hj => congrArg Prod.snd (load_accepted (s := s.doReset) rfl hj v), fun _ => rfl⟩
  refine ⟨_, load_accepted fresh hj v, ?_, fun a outside => readByte_writeSlot_other outside, fun _ => rfl, rfl,
    ⟨rfl, rfl, rfl, rfl⟩, rfl, rfl, rfl⟩
  exact (if_pos hj).trans (congrArg some (readSlot_writeSlot_same _ _ _))

/-! ## Runs (R96) -/

/-- The ways `run` stops: on a halt of that name, at the bound, or on an abort below it. -/
inductive StopCase (s : State) : RunOutcome → Prop where
  | exit (stopped : s.halt = .exit) : StopCase s .exit
  | fault (stopped : s.halt = .fault) : StopCase s (.fault s.fault)
  | gap (stopped : s.halt = .gap) : StopCase s .gap
  | bound (running : s.halt = .none) (above : s.params.textBound.toNat ≤ s.pc.toNat) : StopCase s .bound
  | aborted (running : s.halt = .none) (below : s.pc.toNat < s.params.textBound.toNat) : StopCase s .aborted

/-- `run` goes on exactly from a running block below the bound, unless the host aborts. -/
theorem runStops_eq_none_iff (abort : Bool) (s : State) : runStops abort s = none ↔
    s.halt = .none ∧ s.pc.toNat < s.params.textBound.toNat ∧ abort = false := by
  cases h : s.halt with
  | none =>
    simp only [runStops, h, true_and]
    split_ifs with above aborts
    · simp [above]
    · simp [aborts]
    · simp [aborts, Nat.lt_of_not_le above]
  | exit | fault | gap => simp [runStops, h]

/-- Where `run` stops, its outcome is a stop of that name; ABORTED only where the host aborts. -/
theorem runStops_eq_some {abort : Bool} {s : State} {o : RunOutcome} (h : runStops abort s = some o) :
    StopCase s o ∧ (o = .aborted → abort = true) := by
  unfold runStops at h
  split at h
  case h_1 stopped => cases h; exact ⟨.exit stopped, nofun⟩
  case h_2 stopped => cases h; exact ⟨.fault stopped, nofun⟩
  case h_3 stopped => cases h; exact ⟨.gap stopped, nofun⟩
  case h_4 running =>
    split_ifs at h with above abort
    · cases h; exact ⟨.bound running above, nofun⟩
    · cases h; exact ⟨.aborted running (by omega), fun _ => abort⟩

/-- `run` stops as its outcome says, in the state it leaves. -/
theorem run_stopCase (budget : Nat) (s : State) : StopCase (run budget s).1 (run budget s).2 := by
  induction budget, s using run.induct with
  | case1 s =>
    cases h : runStops true s with
    | none => simp [runStops_eq_none_iff] at h
    | some o => simpa [run, h] using (runStops_eq_some h).1
  | case2 budget s o h => simpa [run, h] using (runStops_eq_some h).1
  | case3 budget s h ih => simpa [run, h] using ih

@[simp] theorem run_params (budget : Nat) (s : State) : (run budget s).1.params = s.params := by
  induction budget, s using run.induct with
  | case1 s => rfl
  | case2 budget s o h => simp [run, h]
  | case3 budget s h ih => simpa [run, h] using ih

theorem length_runSteps_le (budget : Nat) (s : State) : (runSteps budget s).length ≤ budget := by
  induction budget, s using run.induct with
  | case1 s => simp [runSteps]
  | case2 budget s o h => simp [runSteps, h]
  | case3 budget s h ih => simpa [runSteps, h] using ih

/-- An aborted run has spent its budget. -/
theorem length_runSteps_of_aborted {budget : Nat} {s : State} (aborted : (run budget s).2 = .aborted) :
    (runSteps budget s).length = budget := by
  induction budget, s using run.induct with
  | case1 s => rfl
  | case2 budget s o h =>
    have : o = .aborted := by simpa [run, h] using aborted
    cases (runStops_eq_some h).2 this
  | case3 budget s h ih => simpa [runSteps, h] using ih (by simpa [run, h] using aborted)

/-- One step more is a step first. -/
theorem core_run_succ (k : Nat) (s : State) :
    (Host.Core.run core (k + 1) s : Result) = Host.Core.run core k (stepState s) := by
  have next : core.step s = .next (stepState s) := step_eq_next s
  simp only [Host.Core.run, next]

/-- The state `run` leaves is that of the steps it took. -/
theorem core_run_length_runSteps (budget : Nat) (s : State) :
    (Host.Core.run core (runSteps budget s).length s : Result) = .next (run budget s).1 := by
  induction budget, s using run.induct with
  | case1 s => rfl
  | case2 budget s o h => simp [run, runSteps, h, Host.Core.run]
  | case3 budget s h ih =>
    simp only [run, runSteps, h, List.length_cons, core_run_succ]
    exact ih

/-- Settles O48: `run` is the steps it took, and the way it stopped names its outcome. -/
theorem runStopsAsItsOutcomeSays : Obligations.RunStopsAsItsOutcomeSays := by
  intro budget s t o h
  have spent : o = .aborted → (runSteps budget s).length = budget :=
    fun aborted => length_runSteps_of_aborted (by rw [h, aborted])
  have steps := core_run_length_runSteps budget s
  have params := run_params budget s
  have stop := run_stopCase budget s
  simp only [h] at steps params stop
  refine ⟨length_runSteps_le budget s, steps, ?_⟩
  rw [← params]
  cases stop with
  | exit stopped | fault stopped | gap stopped => simp [stopped]
  | bound running above => simp [running, above]
  | aborted running below => simp [running, below, spent rfl]

/-- Settles O47: `run` goes on only from a running block below the bound, and no step moves the bound. -/
theorem runNeverFetchesAtTheBound : Obligations.RunNeverFetchesAtTheBound := by
  intro budget s u hu
  induction budget, s using run.induct with
  | case1 s => simp [runSteps] at hu
  | case2 budget s o h => simp [runSteps, h] at hu
  | case3 budget s h ih =>
    obtain rfl | later : u = s ∨ u ∈ runSteps budget (stepState s) := by simpa [runSteps, h] using hu
    · obtain ⟨running, below, -⟩ := (runStops_eq_none_iff false u).mp h
      exact ⟨running, below⟩
    · simpa using ih later

/-! ## A halted block (R90) -/

theorem core_run_halted {s : State} (stopped : s.halt ≠ .none) (k : Nat) :
    (Host.Core.run core k s : Result) = .next s := by
  induction k with
  | zero => rfl
  | succ k ih => rwa [core_run_succ, stepState_of_step (step_halted stopped)]

theorem run_halted {s : State} (stopped : s.halt ≠ .none) (budget : Nat) : (run budget s).1 = s := by
  induction budget, s using run.induct with
  | case1 s => rfl
  | case2 budget s o h => simp [run, h]
  | case3 budget s h ih => exact absurd ((runStops_eq_none_iff false s).mp h).1 stopped

/-- Settles O10: no step leaves a halted state, and neither does a run. -/
theorem haltedBlockDoesNotStep : Obligations.HaltedBlockDoesNotStep := fun s stopped =>
  ⟨step_halted stopped, stepOutcome_halted stopped, core_run_halted stopped, run_halted stopped,
    fun j v _ => load_halt s j v, rfl⟩

end Sys2Proof.Machine
end

section
/-! SUPPORT. Instructions that only write a register: the words of a row (30_encoding.md R75) and the frame of a
register write (00_scope.md R16), with LUI and AUIPC (41_upper_immediate.md) settled by them. -/

namespace Sys2Proof.Machine

/-! ## Rows and register writes -/

/-- The words of an instruction are those its row of the table selects; the literals of a claim are the table's. -/
theorem rowIs (o : Op) : RowIs o o.matchBits o.maskBits := fun w => by
  rw [decoderAgreesWithOpcodeTable.1 w o, Op.matches, beq_iff_eq]

/-- A register write changes that register and nothing else; to `x0`, nothing at all (R16, R21). -/
theorem writesOnly_setReg (s : State) (rd : Reg) (v : Word) : WritesOnly s rd v (s.setReg rd v) :=
  ⟨fun r => getReg_setReg s rd r v, setReg_pc .., fun a => congrArg (·.readByte a) (setReg_mem s rd v),
    ⟨setReg_halt .., setReg_fault .., setReg_gapSeen .., setReg_started ..⟩, setReg_ppc .., setReg_out ..,
    setReg_params ..⟩

/-! ## Upper immediates (41_upper_immediate.md) -/

/-- LUI writes its immediate (R110). -/
theorem exec_lui (rd : Reg) (imm : Word) (s : State) : exec (.lui rd imm) s = .next (s.setReg rd imm) := rfl

/-- AUIPC adds its immediate to its own address, `ppc` (R111). -/
theorem exec_auipc (rd : Reg) (imm : Word) (s : State) :
    exec (.auipc rd imm) s = .next (s.setReg rd (s.relativeTarget imm)) := rfl

/-- The sum wraps modulo `2^32` (R111, R130). -/
theorem relativeTarget_toNat (s : State) (imm : Word) :
    (s.relativeTarget imm).toNat = (s.ppc.toNat + imm.toNat) % 2 ^ 32 := BitVec.toNat_add ..

/-- The value of an upper immediate is its field times 4096 (R66). -/
theorem upperImmediate_toNat (field : BitVec 20) : (field ++ 0#12).toNat = field.toNat * 4096 := by
  rw [toNat_append_eq_add, BitVec.toNat_zero]
  omega

/-- Settles O28: both instructions are one register write, of the upper immediate and of its sum with `ppc`. -/
theorem upperImmediateResults : Obligations.UpperImmediateResults := by
  refine ⟨rowIs .lui, rowIs .auipc, fun rd field s => ⟨?lui, ?auipc⟩⟩
  case lui => exact ⟨_, _, exec_lui .., writesOnly_setReg .., upperImmediate_toNat field⟩
  case auipc =>
    refine ⟨_, _, exec_auipc .., writesOnly_setReg .., ?_⟩
    rw [relativeTarget_toNat, upperImmediate_toNat]

end Sys2Proof.Machine
end

section
/-! SUPPORT. The spec's example words. -/

namespace Sys2Proof

/-- Settles O6: the dispatch tree evaluated on each of the fifteen words. -/
theorem specExampleWordsDecode : Obligations.SpecExampleWordsDecode := by
  unfold Obligations.SpecExampleWordsDecode
  decide

end Sys2Proof
end

section
/-! SUPPORT. Loads and stores (42_load_store.md): what a load takes from the slot its address selects, what a store puts
there, and the fault outside memory. -/

namespace Sys2Proof.Machine

/-! ## Addresses and faults -/

/-- The address wraps modulo `2^32` (R42, R115). -/
theorem effectiveAddress_toNat (s : State) (rs1 : Reg) (imm : Word) :
    (s.effectiveAddress rs1 imm).toNat = ((s.getReg rs1).toNat + imm.toNat) % 2 ^ 32 := BitVec.toNat_add ..

/-- `InRange` failing (R43). -/
theorem inRange_eq_false (s : State) (a : Word) : s.inRange a = false ↔ s.params.memBytes ≤ a.toNat := by
  rw [← Bool.not_eq_true, inRange_iff, Nat.not_lt]

/-- Raising a fault writes `halt` and the record, and nothing else (R181). -/
theorem faultsAt_raise (s : State) (kind : FaultKind) (a : Word) : FaultsAt s kind a (s.raise kind s.ppc a) :=
  ⟨rfl, rfl, fun _ => rfl, fun _ => rfl, rfl, rfl, rfl, rfl, rfl, rfl⟩

/-! ## What a load takes from its slot -/

/-- The low byte of a slot is its first byte, whichever byte the address named (R48, R116). -/
theorem readSlot_lowByte (m : Memory) (j : Nat) : (m.readSlot j).setWidth 8 = m.readByte (4 * j) := by
  apply BitVec.eq_of_toNat_eq
  rw [BitVec.toNat_setWidth, Memory.readSlot, wordOfBytes_toNat]
  omega

/-- The low halfword of a slot is its first two bytes, whichever byte the address named (R48, R117). -/
theorem readSlot_lowHalf (m : Memory) (j : Nat) :
    (m.readSlot j).setWidth 16 = m.readByte (4 * j + 1) ++ m.readByte (4 * j) := by
  apply BitVec.eq_of_toNat_eq
  rw [BitVec.toNat_setWidth, Memory.readSlot, wordOfBytes_toNat, toNat_append_eq_add]
  omega

/-- Sign extension keeps the signed value (R15). -/
theorem sext_toInt {n : Nat} (hn : n ≤ 32) (v : Word) : (sext n v).toInt = (v.setWidth n).toInt :=
  BitVec.toInt_signExtend_of_le hn

/-- Zero extension keeps the value modulo `2^n` (R15). -/
theorem zext_toNat (n : Nat) (v : Word) : (zext n v).toNat = v.toNat % 2 ^ n := by
  rw [zext, BitVec.toNat_setWidth, BitVec.toNat_setWidth]
  exact Nat.mod_eq_of_lt ((Nat.mod_le ..).trans_lt v.isLt)

section
variable (s : State) (a : Word)

/-- LB's value (R116). -/
theorem sext_byte_memRead : (sext 8 (s.memRead a)).toInt = (s.mem.readByte (4 * slotIndex a)).toInt := by
  rw [sext_toInt (by decide), State.memRead, readSlot_lowByte]

/-- LH's value (R117). -/
theorem sext_half_memRead : (sext 16 (s.memRead a)).toInt =
    256 * (s.mem.readByte (4 * slotIndex a + 1)).toInt + (s.mem.readByte (4 * slotIndex a)).toNat := by
  rw [sext_toInt (by decide), State.memRead, readSlot_lowHalf, BitVec.toInt_append]
  rfl

/-- LW's value (R118). -/
theorem memRead_toNat : (s.memRead a).toNat =
    (s.mem.readByte (4 * slotIndex a)).toNat + 2 ^ 8 * (s.mem.readByte (4 * slotIndex a + 1)).toNat +
      2 ^ 16 * (s.mem.readByte (4 * slotIndex a + 2)).toNat + 2 ^ 24 * (s.mem.readByte (4 * slotIndex a + 3)).toNat :=
  wordOfBytes_toNat ..

/-- LBU's value (R119). -/
theorem zext_byte_memRead : (zext 8 (s.memRead a)).toNat = (s.mem.readByte (4 * slotIndex a)).toNat := by
  rw [zext_toNat, ← BitVec.toNat_setWidth, State.memRead, readSlot_lowByte]

/-- LHU's value (R120). -/
theorem zext_half_memRead : (zext 16 (s.memRead a)).toNat =
    (s.mem.readByte (4 * slotIndex a)).toNat + 256 * (s.mem.readByte (4 * slotIndex a + 1)).toNat := by
  rw [zext_toNat, ← BitVec.toNat_setWidth, State.memRead, readSlot_lowHalf, toNat_append_eq_add]
  exact Nat.add_comm ..

end

/-! ## The load rule -/

section
variable (rd rs1 : Reg) (imm : Word) (s : State)

theorem exec_lb : exec (.lb rd rs1 imm) s = .next (loadWith (sext 8) rd rs1 imm s) := rfl
theorem exec_lh : exec (.lh rd rs1 imm) s = .next (loadWith (sext 16) rd rs1 imm s) := rfl
theorem exec_lw : exec (.lw rd rs1 imm) s = .next (loadWith id rd rs1 imm s) := rfl
theorem exec_lbu : exec (.lbu rd rs1 imm) s = .next (loadWith (zext 8) rd rs1 imm s) := rfl
theorem exec_lhu : exec (.lhu rd rs1 imm) s = .next (loadWith (zext 16) rd rs1 imm s) := rfl

end

/-- A load from a backed address writes its destination and nothing else (R115). -/
theorem loadWith_writesOnly {s : State} {rs1 : Reg} {imm : Word} (f : Word → Word) (rd : Reg)
    (backed : s.inRange (s.effectiveAddress rs1 imm) = true) :
    WritesOnly s rd (f (s.memRead (s.effectiveAddress rs1 imm))) (loadWith f rd rs1 imm s) := by
  rw [loadWith_inRange backed]
  exact writesOnly_setReg ..

/-- Settles O34: each load is one register write, of an extension of the selected slot, or the one fault. -/
theorem loadResults : Obligations.LoadResults := by
  refine ⟨rowIs .lb, rowIs .lh, rowIs .lw, rowIs .lbu, rowIs .lhu, fun rd rs1 imm a s base ha hbase => ?_⟩
  obtain rfl : a = s.effectiveAddress rs1 imm := BitVec.eq_of_toNat_eq (ha.trans (effectiveAddress_toNat ..).symm)
  rw [← slotIndex_eq] at hbase
  subst hbase
  refine ⟨fun inside => ?_, fun outside => ?_⟩
  · have writes := fun f => loadWith_writesOnly f rd ((inRange_iff ..).mpr inside)
    exact ⟨⟨_, _, exec_lb .., writes _, sext_byte_memRead ..⟩, ⟨_, _, exec_lh .., writes _, sext_half_memRead ..⟩,
      ⟨_, _, exec_lw .., writes _, memRead_toNat ..⟩, ⟨_, _, exec_lbu .., writes _, zext_byte_memRead ..⟩,
      ⟨_, _, exec_lhu .., writes _, zext_half_memRead ..⟩⟩
  · have faults := fun f => loadWith_outOfRange (f := f) (rd := rd) ((inRange_eq_false ..).mpr outside)
    refine ⟨_, faultsAt_raise s .load _, ?_, ?_, ?_, ?_, ?_⟩
    · rw [exec_lb, faults]
    · rw [exec_lh, faults]
    · rw [exec_lw, faults]
    · rw [exec_lbu, faults]
    · rw [exec_lhu, faults]

/-! ## What a store puts into its slot -/

/-- Lane `k` of a slot is the `k`-th base-256 digit of its value (R47). -/
theorem laneOf_toNat (v : Word) (k : Nat) : (laneOf v k).toNat = v.toNat / 2 ^ (8 * k) % 2 ^ 8 := by
  rw [laneOf, BitVec.extractLsb'_toNat, Nat.shiftRight_eq_div_pow]

/-- The two settings of `NARROW_STORE` (R123, R124). -/
theorem narrowed_toNat (s : State) (n : Nat) (v : Word) : (s.narrowed n v).toNat =
    if s.params.narrowStore = .fullWord then v.toNat else v.toNat % 2 ^ n := by
  unfold State.narrowed
  cases s.params.narrowStore with
  | fullWord => rfl
  | maskedWord => exact zext_toNat n v

/-- Both settings keep the low part, which a narrow load reads back. -/
theorem narrowed_toNat_mod (s : State) (n : Nat) (v : Word) :
    (s.narrowed n v).toNat % 2 ^ n = v.toNat % 2 ^ n := by
  rw [narrowed_toNat]
  split
  · rfl
  · exact Nat.mod_mod ..

/-- A store replaces one slot and changes nothing else (R45, R122). -/
theorem memWrite_frame (s : State) (a v : Word) : SameMemoryBut (slotIndex a) s (s.memWrite a v) ∧
    SameRegs s (s.memWrite a v) ∧ (s.memWrite a v).pc = s.pc ∧ SameRest s (s.memWrite a v) :=
  ⟨fun _ other => readByte_writeSlot_other other, fun _ => rfl, rfl, ⟨rfl, rfl, rfl, rfl⟩, rfl, rfl, rfl⟩

/-! ## The store rule -/

section
variable (rs1 rs2 : Reg) (imm : Word) (s : State)

theorem exec_sb : exec (.sb rs1 rs2 imm) s = .next (storeValue rs1 imm (s.narrowed 8 (s.getReg rs2)) s) := rfl
theorem exec_sh : exec (.sh rs1 rs2 imm) s = .next (storeValue rs1 imm (s.narrowed 16 (s.getReg rs2)) s) := rfl
theorem exec_sw : exec (.sw rs1 rs2 imm) s = .next (storeValue rs1 imm (s.getReg rs2) s) := rfl

end

/-- Settles O35: the slot's bytes are the lanes of the register, and a fault leaves memory alone. -/
theorem storeWordResult : Obligations.StoreWordResult := by
  refine ⟨rowIs .sw, ?_⟩
  rintro rs1 rs2 imm a s rfl
  refine ⟨effectiveAddress_toNat .., slotIndex_eq _, fun inside => ?_, fun outside => ?_⟩
  · rw [exec_sw, storeValue_inRange ((inRange_iff ..).mpr inside)]
    exact ⟨_, rfl, fun k hk => (congrArg _ (readByte_writeSlot_lane _ _ k hk _)).trans (laneOf_toNat ..),
      memWrite_frame ..⟩
  · rw [exec_sw, storeValue_outOfRange ((inRange_eq_false ..).mpr outside)]
    exact ⟨_, rfl, faultsAt_raise ..⟩

/-- A narrow store fills its whole slot, and keeps the low part of what it was given (R123, R124). -/
theorem readSlot_memWrite_narrowed (s : State) (a : Word) (n : Nat) (v : Word) :
    ((s.memWrite a (s.narrowed n v)).mem.readSlot (slotIndex a)).toNat =
        (if s.params.narrowStore = .fullWord then v.toNat else v.toNat % 2 ^ n) ∧
      ((s.memWrite a (s.narrowed n v)).mem.readSlot (slotIndex a)).toNat % 2 ^ n = v.toNat % 2 ^ n := by
  rw [memWrite_mem, readSlot_writeSlot_same]
  exact ⟨narrowed_toNat .., narrowed_toNat_mod ..⟩

/-- Settles O36: SB and SH are one narrow store, at 8 and at 16 bits. -/
theorem narrowStoreResults : Obligations.NarrowStoreResults := by
  refine ⟨rowIs .sb, rowIs .sh, ?_⟩
  rintro rs1 rs2 imm a s rfl
  rw [exec_sb, exec_sh]
  refine ⟨fun inside => ?_, fun outside => ?_⟩
  · have backed := (inRange_iff ..).mpr inside
    rw [storeValue_inRange backed, storeValue_inRange backed]
    obtain ⟨byte, lowByte⟩ := readSlot_memWrite_narrowed s (s.effectiveAddress rs1 imm) 8 (s.getReg rs2)
    obtain ⟨half, lowHalf⟩ := readSlot_memWrite_narrowed s (s.effectiveAddress rs1 imm) 16 (s.getReg rs2)
    exact ⟨⟨_, rfl, byte, lowByte, memWrite_frame ..⟩, ⟨_, rfl, half, lowHalf, memWrite_frame ..⟩⟩
  · have unbacked := (inRange_eq_false ..).mpr outside
    rw [storeValue_outOfRange unbacked, storeValue_outOfRange unbacked]
    exact ⟨_, faultsAt_raise .., rfl, rfl⟩

end Sys2Proof.Machine
end

section
/-! SUPPORT. Control transfer (43_control_transfer.md): branches and jumps are one move of `pc` and one write of the
link register, `x0` where there is none; a bad target is the next step's fault. -/

namespace Sys2Proof.Machine

/-! ## The branch relations (R133 to R136) -/

section
variable (x y : Word)

theorem lessSigned_iff : lessSigned x y = true ↔ x.toInt < y.toInt := decide_eq_true_iff
theorem lessUnsigned_iff : lessUnsigned x y = true ↔ x.toNat < y.toNat := decide_eq_true_iff

theorem not_lessSigned_iff : (!lessSigned x y) = true ↔ y.toInt ≤ x.toInt := by
  rw [Bool.not_eq_true', ← Bool.not_eq_true, lessSigned_iff, Int.not_lt]

theorem not_lessUnsigned_iff : (!lessUnsigned x y) = true ↔ y.toNat ≤ x.toNat := by
  rw [Bool.not_eq_true', ← Bool.not_eq_true, lessUnsigned_iff, Nat.not_lt]

end

/-! ## The branch rule (R130) -/

section
variable (rs1 rs2 : Reg) (imm : Word) (s : State)

theorem exec_beq : exec (.beq rs1 rs2 imm) s =
    .next (branchIf (decide (s.getReg rs1 = s.getReg rs2)) imm s) := rfl
theorem exec_bne : exec (.bne rs1 rs2 imm) s =
    .next (branchIf (decide (s.getReg rs1 ≠ s.getReg rs2)) imm s) := rfl
theorem exec_blt : exec (.blt rs1 rs2 imm) s =
    .next (branchIf (lessSigned (s.getReg rs1) (s.getReg rs2)) imm s) := rfl
theorem exec_bge : exec (.bge rs1 rs2 imm) s =
    .next (branchIf (!lessSigned (s.getReg rs1) (s.getReg rs2)) imm s) := rfl
theorem exec_bltu : exec (.bltu rs1 rs2 imm) s =
    .next (branchIf (lessUnsigned (s.getReg rs1) (s.getReg rs2)) imm s) := rfl
theorem exec_bgeu : exec (.bgeu rs1 rs2 imm) s =
    .next (branchIf (!lessUnsigned (s.getReg rs1) (s.getReg rs2)) imm s) := rfl

end

/-- The branch rule moves `pc` where the test that decides the relation holds, and changes nothing else (R130). -/
theorem branchesIf_branchIf {holds : Prop} {taken : Bool} (test : taken = true ↔ holds) (imm : Word) (s : State) :
    BranchesIf holds imm s (branchIf taken imm s) := by
  cases taken with
  | true =>
    exact ⟨fun _ => relativeTarget_toNat s imm, fun fails => absurd (test.mp rfl) fails, fun _ => rfl, fun _ => rfl,
      ⟨rfl, rfl, rfl, rfl⟩, rfl, rfl, rfl⟩
  | false =>
    exact ⟨fun h => absurd (test.mpr h) Bool.false_ne_true, fun _ => rfl, fun _ => rfl, fun _ => rfl,
      ⟨rfl, rfl, rfl, rfl⟩, rfl, rfl, rfl⟩

/-- Settles O39: each branch is the branch rule, with the test that decides its relation. -/
theorem branchResults : Obligations.BranchResults := by
  refine ⟨rowIs .beq, rowIs .bne, rowIs .blt, rowIs .bge, rowIs .bltu, rowIs .bgeu, fun rs1 rs2 imm s =>
    ⟨⟨_, exec_beq .., branchesIf_branchIf ?beq ..⟩, ⟨_, exec_bne .., branchesIf_branchIf ?bne ..⟩,
      ⟨_, exec_blt .., branchesIf_branchIf (lessSigned_iff ..) ..⟩,
      ⟨_, exec_bge .., branchesIf_branchIf (not_lessSigned_iff ..) ..⟩,
      ⟨_, exec_bltu .., branchesIf_branchIf (lessUnsigned_iff ..) ..⟩,
      ⟨_, exec_bgeu .., branchesIf_branchIf (not_lessUnsigned_iff ..) ..⟩⟩⟩
  case beq => rw [decide_eq_true_iff, BitVec.toNat_inj]
  case bne => rw [decide_eq_true_iff, ne_eq, ne_eq, BitVec.toNat_inj]

/-! ## Jump and link (R137, R138) -/

theorem exec_jal (rd : Reg) (imm : Word) (s : State) :
    exec (.jal rd imm) s = .next ((s.setPc (s.relativeTarget imm)).setReg rd s.pc) := rfl

theorem exec_jalr (rd rs1 : Reg) (imm : Word) (s : State) :
    exec (.jalr rd rs1 imm) s = .next ((s.setPc (s.jalrTarget rs1 imm)).setReg rd s.pc) := rfl

/-- A jump moves `pc`, writes its link register and changes nothing else. -/
theorem jump_frame (s : State) (target : Word) (rd : Reg) (v : Word) :
    ((s.setPc target).setReg rd v).pc = target ∧
    (∀ r : Reg, ((s.setPc target).setReg rd v).getReg r = if r = rd ∧ r ≠ 0 then v else s.getReg r) ∧
    SameMemory s ((s.setPc target).setReg rd v) ∧ SameRest s ((s.setPc target).setReg rd v) := by
  obtain ⟨regs, pc, mem, rest⟩ := writesOnly_setReg (s.setPc target) rd v
  exact ⟨pc, regs, mem, rest⟩

/-- Settles O40: the target is relative to `ppc`, and the link is the `pc` the fetch left. -/
theorem jumpAndLinkResult : Obligations.JumpAndLinkResult := by
  refine ⟨rowIs .jal, fun rd imm s => ?_⟩
  obtain ⟨pc, frame⟩ := jump_frame s (s.relativeTarget imm) rd s.pc
  exact ⟨_, exec_jal .., (congrArg BitVec.toNat pc).trans (relativeTarget_toNat s imm), frame⟩

/-- Clearing bit 0 of the sum halves it and doubles the half. -/
theorem jalrTarget_toNat_eq_two_mul (s : State) (rs1 : Reg) (imm : Word) :
    (s.jalrTarget rs1 imm).toNat = 2 * (((s.getReg rs1).toNat + imm.toNat) % 2 ^ 32 / 2) := by
  rw [jalrTarget_toNat, BitVec.toNat_add]
  omega

/-- Settles O41: the target is computed in the state before the link is written. -/
theorem jumpRegisterResult : Obligations.JumpRegisterResult := by
  refine ⟨rowIs .jalr, fun rd rs1 imm s => ?_⟩
  obtain ⟨pc, frame⟩ := jump_frame s (s.jalrTarget rs1 imm) rd s.pc
  exact ⟨_, exec_jalr .., (congrArg BitVec.toNat pc).trans (jalrTarget_toNat_eq_two_mul s rs1 imm), frame⟩

/-! ## Bad targets (R139) -/

/-- A branch is a jump that links nothing. -/
theorem branchIf_eq_jump (taken : Bool) (imm : Word) (s : State) :
    branchIf taken imm s = (s.setPc (if taken then s.relativeTarget imm else s.pc)).setReg 0 s.pc := by
  rw [setReg_zero]
  cases taken <;> rfl

/-- Every branch and every jump is one move of `pc` and one link, in `x0` where the instruction has no `rd`. -/
theorem exec_control {i : Instr} (control : i.op ∈ controlOps) (s : State) :
    ∃ target, exec i s = .next ((s.setPc target).setReg ((destReg i).getD 0) s.pc) := by
  cases i
  case beq | bne | blt | bge | bltu | bgeu => exact ⟨_, congrArg Host.Outcome.next (branchIf_eq_jump ..)⟩
  case jal rd imm => exact ⟨_, exec_jal rd imm s⟩
  case jalr rd rs1 imm => exact ⟨_, exec_jalr rd rs1 imm s⟩
  all_goals simp [Instr.op, controlOps] at control

/-- Taking `x0` for a destination that is not there names no register that can change. -/
theorem eq_getD_zero_iff (dest : Option Reg) (r : Reg) : r = dest.getD 0 ∧ r ≠ 0 ↔ dest = some r ∧ r ≠ 0 := by
  cases dest with
  | none => simp
  | some rd => simp [eq_comm]

/-- No effect of a well-formed instruction makes `pc` odd. -/
theorem effect_pc_even {i : Instr} {s t : State} (effect : Effect i s t) : EvenTarget i s t.pc := by
  cases effect with
  | write rd v target even dest straight => simpa using even
  | store | print | exit | fault => exact fun _ pcEven _ => pcEven

/-- Settles O42: the step is one jump from the fetched state to an even target, and the fetch check of the next step
meets a target that cannot be fetched. -/
theorem badTargetsFaultAtTheNextFetch : Obligations.BadTargetsFaultAtTheNextFetch := by
  intro s i running aligned inside word control
  have good : s.fetchable = true := (fetchable_iff s).mpr ⟨aligned, inside⟩
  obtain ⟨target, transfer⟩ := exec_control control s.fetched
  obtain ⟨t, executed, effect⟩ := exec_effect i s.fetched
  have next : step s = .next t := (step_instr running good word).trans executed
  have even : t.pc.toNat % 2 = 0 :=
    effect_pc_even effect (wf_of_decodeWord word) (fetched_pc_even good) (by rw [fetched_ppc]; omega)
  obtain rfl : t = _ := Host.Outcome.next.inj (executed.symm.trans transfer)
  obtain ⟨-, regs, mem, ⟨halt, -⟩, -, out, params⟩ := jump_frame s.fetched target ((destReg i).getD 0) s.fetched.pc
  have running' := halt.trans running
  simp only [eq_getD_zero_iff] at regs
  refine ⟨_, next, stepOutcome_ok running good word next running', running', even, regs, mem, out, fun bad => ?_⟩
  have unfetchable := (fetchable_eq_false _).mpr (bad.imp (by omega) (params ▸ ·))
  exact ⟨_, step_unfetchable running' unfetchable, rfl, rfl, rfl⟩

end Sys2Proof.Machine
end

section
/-! SUPPORT. Integer computation (44_integer_alu.md): every instruction of the family is one register write of a value
of its operands (R145), and that value is the arithmetic, bitwise, shifted or compared one. -/

namespace Sys2Proof.Machine

/-! ## The instructions as register writes (R146 to R165) -/

section
variable (rd rs1 rs2 : Reg) (imm : Word) (shamt : BitVec 5) (s : State)

theorem exec_add : exec (.add rd rs1 rs2) s = .next (s.setReg rd (s.getReg rs1 + s.getReg rs2)) := rfl
theorem exec_sub : exec (.sub rd rs1 rs2) s = .next (s.setReg rd (s.getReg rs1 - s.getReg rs2)) := rfl
theorem exec_sll : exec (.sll rd rs1 rs2) s =
    .next (s.setReg rd (s.getReg rs1 <<< shiftAmount (s.getReg rs2))) := rfl
theorem exec_slt : exec (.slt rd rs1 rs2) s =
    .next (s.setReg rd (boolWord (lessSigned (s.getReg rs1) (s.getReg rs2)))) := rfl
theorem exec_sltu : exec (.sltu rd rs1 rs2) s =
    .next (s.setReg rd (boolWord (lessUnsigned (s.getReg rs1) (s.getReg rs2)))) := rfl
theorem exec_xor : exec (.xor rd rs1 rs2) s = .next (s.setReg rd (s.getReg rs1 ^^^ s.getReg rs2)) := rfl
theorem exec_srl : exec (.srl rd rs1 rs2) s =
    .next (s.setReg rd (s.getReg rs1 >>> shiftAmount (s.getReg rs2))) := rfl
theorem exec_sra : exec (.sra rd rs1 rs2) s =
    .next (s.setReg rd ((s.getReg rs1).sshiftRight (shiftAmount (s.getReg rs2)))) := rfl
theorem exec_or : exec (.or rd rs1 rs2) s = .next (s.setReg rd (s.getReg rs1 ||| s.getReg rs2)) := rfl
theorem exec_and : exec (.and rd rs1 rs2) s = .next (s.setReg rd (s.getReg rs1 &&& s.getReg rs2)) := rfl
theorem exec_addi : exec (.addi rd rs1 imm) s = .next (s.setReg rd (s.getReg rs1 + imm)) := rfl
theorem exec_ori : exec (.ori rd rs1 imm) s = .next (s.setReg rd (s.getReg rs1 ||| imm)) := rfl
theorem exec_slti : exec (.slti rd rs1 imm) s =
    .next (s.setReg rd (boolWord (lessSigned (s.getReg rs1) imm))) := rfl
theorem exec_xori : exec (.xori rd rs1 imm) s = .next (s.setReg rd (s.getReg rs1 ^^^ imm)) := rfl
theorem exec_andi : exec (.andi rd rs1 imm) s = .next (s.setReg rd (s.getReg rs1 &&& imm)) := rfl
theorem exec_sltiu : exec (.sltiu rd rs1 imm) s =
    .next (s.setReg rd (boolWord (lessUnsigned (s.getReg rs1) imm))) := rfl
theorem exec_slli : exec (.slli rd rs1 shamt) s = .next (s.setReg rd (s.getReg rs1 <<< shamt.toNat)) := rfl
theorem exec_srli : exec (.srli rd rs1 shamt) s = .next (s.setReg rd (s.getReg rs1 >>> shamt.toNat)) := rfl
theorem exec_srai : exec (.srai rd rs1 shamt) s =
    .next (s.setReg rd ((s.getReg rs1).sshiftRight shamt.toNat)) := rfl

end

/-! ## Sums and differences (R146, R147, R157) -/

/-- A difference wraps modulo `2^32`, whichever operand is the larger (R147). -/
theorem toNat_sub_wraps (x y : Word) : (x - y).toNat = (2 ^ 32 + x.toNat - y.toNat) % 2 ^ 32 := by
  rw [BitVec.toNat_sub, ← Nat.sub_add_comm y.isLt.le]

/-- Settles O29: each instruction writes the sum or the difference of words, which wraps. -/
theorem addAndSubtractResults : Obligations.AddAndSubtractResults :=
  ⟨rowIs .add, rowIs .sub, rowIs .addi, fun _ _ _ _ _ =>
    ⟨⟨_, _, exec_add .., writesOnly_setReg .., BitVec.toNat_add ..⟩,
      ⟨_, _, exec_sub .., writesOnly_setReg .., toNat_sub_wraps ..⟩,
      ⟨_, _, exec_addi .., writesOnly_setReg .., BitVec.toNat_add ..⟩⟩⟩

/-! ## Bitwise logic (R151, R154, R155, R158, R160, R161) -/

section
variable (x y : Word) (k : Nat)

theorem getLsbD_xor_iff : (x ^^^ y).getLsbD k = true ↔ x.getLsbD k ≠ y.getLsbD k := by
  rw [BitVec.getLsbD_xor, bne_iff_ne]

theorem getLsbD_or_iff : (x ||| y).getLsbD k = true ↔ x.getLsbD k = true ∨ y.getLsbD k = true := by
  rw [BitVec.getLsbD_or, Bool.or_eq_true]

theorem getLsbD_and_iff : (x &&& y).getLsbD k = true ↔ x.getLsbD k = true ∧ y.getLsbD k = true := by
  rw [BitVec.getLsbD_and, Bool.and_eq_true]

end

/-- Settles O30: the register and the immediate form of an operation write the same function of two words. -/
theorem logicalResults : Obligations.LogicalResults :=
  ⟨rowIs .xor, rowIs .or, rowIs .and, rowIs .xori, rowIs .ori, rowIs .andi, fun _ _ _ _ _ =>
    ⟨⟨_, _, exec_xor .., writesOnly_setReg .., fun k _ => getLsbD_xor_iff _ _ k⟩,
      ⟨_, _, exec_or .., writesOnly_setReg .., fun k _ => getLsbD_or_iff _ _ k⟩,
      ⟨_, _, exec_and .., writesOnly_setReg .., fun k _ => getLsbD_and_iff _ _ k⟩,
      ⟨_, _, exec_xori .., writesOnly_setReg .., fun k _ => getLsbD_xor_iff _ _ k⟩,
      ⟨_, _, exec_ori .., writesOnly_setReg .., fun k _ => getLsbD_or_iff _ _ k⟩,
      ⟨_, _, exec_andi .., writesOnly_setReg .., fun k _ => getLsbD_and_iff _ _ k⟩⟩⟩

/-! ## Shifts (R148, R152, R153, R156, R163 to R165) -/

section
variable (x : Word) (n : Nat)

/-- A left shift multiplies by a power of 2, modulo `2^32` (R148). -/
theorem shiftLeft_toNat : (x <<< n).toNat = x.toNat * 2 ^ n % 2 ^ 32 := by
  rw [BitVec.toNat_shiftLeft, Nat.shiftLeft_eq]

/-- A logical right shift divides the unsigned value (R152). -/
theorem ushiftRight_toNat : (x >>> n).toNat = x.toNat / 2 ^ n := by
  rw [BitVec.toNat_ushiftRight, Nat.shiftRight_eq_div_pow]

/-- An arithmetic right shift divides the signed value, rounding down (R153). -/
theorem sshiftRight_toInt : (x.sshiftRight n).toInt = x.toInt / 2 ^ n := by
  rw [BitVec.toInt_sshiftRight, Int.shiftRight_eq_div_pow]
  norm_cast

end

/-- Settles O31: the shift amount is `x[rs2]` modulo 32. -/
theorem registerShiftResults : Obligations.RegisterShiftResults := by
  refine ⟨rowIs .sll, rowIs .srl, rowIs .sra, fun rd rs1 rs2 s => ?_⟩
  rw [← shiftAmount_eq]
  exact ⟨⟨_, _, exec_sll .., writesOnly_setReg .., shiftLeft_toNat ..⟩,
    ⟨_, _, exec_srl .., writesOnly_setReg .., ushiftRight_toNat ..⟩,
    ⟨_, _, exec_sra .., writesOnly_setReg .., sshiftRight_toInt ..⟩⟩

/-- A row that agrees with SLLI in opcode and funct3, wherever its own mask looks, is SLLI's. -/
theorem eq_slli_of_matchBits {o : Op} (h : o.matchBits &&& 0x0000707F#32 = 0x00001013#32 &&& o.maskBits) :
    o = .slli := by
  revert h
  cases o <;> decide

/-- A word with SLLI's opcode and funct3 and another funct7 matches no row: it could match only SLLI's, which asks for
funct7 0 (R73, R163). -/
theorem decodeWord_slli_funct7_gap {w : Word} (slli : w &&& 0x0000707F#32 = 0x00001013#32)
    (funct7 : w &&& 0xFE000000#32 ≠ 0#32) : ∃ g, decodeWord w = .error g := by
  refine (decodeWord_error_iff w).mpr fun o => Bool.eq_false_iff.mpr fun matched => funct7 ?_
  have row : w &&& o.maskBits = o.matchBits := beq_iff_eq.mp matched
  obtain rfl : o = .slli := eq_slli_of_matchBits <| by
    rw [← row, ← slli, BitVec.and_assoc, BitVec.and_assoc, BitVec.and_comm o.maskBits]
  calc w &&& 0xFE000000#32
      = w &&& Op.slli.maskBits &&& 0xFE000000#32 := (BitVec.and_assoc w Op.slli.maskBits 0xFE000000#32).symm
    _ = 0#32 := by rw [row]; rfl

/-- Settles O32: the immediate shifts are the register shifts' functions, of `shamt`. -/
theorem immediateShiftResults : Obligations.ImmediateShiftResults :=
  ⟨rowIs .slli, rowIs .srli, rowIs .srai, fun _ => decodeWord_slli_funct7_gap, fun _ _ _ _ =>
    ⟨⟨_, _, exec_slli .., writesOnly_setReg .., shiftLeft_toNat ..⟩,
      ⟨_, _, exec_srli .., writesOnly_setReg .., ushiftRight_toNat ..⟩,
      ⟨_, _, exec_srai .., writesOnly_setReg .., sshiftRight_toInt ..⟩⟩⟩

/-! ## Compares (R149, R150, R159, R162) -/

/-- The word of a test that decides a relation. -/
theorem boolWord_toNat {holds : Prop} [Decidable holds] {c : Bool} (test : c = true ↔ holds) :
    (boolWord c).toNat = if holds then 1 else 0 := by
  cases c with
  | true => rw [if_pos (test.mp rfl)]; rfl
  | false => rw [if_neg fun h => Bool.false_ne_true (test.mpr h)]; rfl

/-- Settles O33: each instruction writes the word of the test that decides its relation. -/
theorem compareResults : Obligations.CompareResults :=
  ⟨rowIs .slt, rowIs .sltu, rowIs .slti, rowIs .sltiu, fun _ _ _ _ _ =>
    ⟨⟨_, _, exec_slt .., writesOnly_setReg .., boolWord_toNat (lessSigned_iff ..)⟩,
      ⟨_, _, exec_sltu .., writesOnly_setReg .., boolWord_toNat (lessUnsigned_iff ..)⟩,
      ⟨_, _, exec_slti .., writesOnly_setReg .., boolWord_toNat (lessSigned_iff ..)⟩,
      ⟨_, _, exec_sltiu .., writesOnly_setReg .., boolWord_toNat (lessUnsigned_iff ..)⟩⟩⟩

end Sys2Proof.Machine
end

section
/-! SUPPORT. ECALL (45_system.md): the four cases of its dispatch, the decimal text of syscall 1, the string of
syscall 4, and what the block does after syscall 10. -/

namespace Sys2Proof.Machine

/-! ## Dispatch (R170) -/

section
variable {s : State}

theorem exec_ecall_printInt (number : s.getReg s.params.sysNumReg = 1#32) :
    exec .ecall s = .next (s.print (decimalText (s.getReg s.params.sysArgReg))) := if_pos number

theorem exec_ecall_printStr (number : s.getReg s.params.sysNumReg = 4#32) :
    exec .ecall s = .next (printStr (s.getReg s.params.sysArgReg) s) := by
  simp [exec, execEcall, number, Config.sysPrintInt, Config.sysPrintStr]

theorem exec_ecall_exit (number : s.getReg s.params.sysNumReg = 10#32) : exec .ecall s = .next s.exit := by
  simp [exec, execEcall, number, Config.sysPrintInt, Config.sysPrintStr, Config.sysExit]

theorem exec_ecall_other (notInt : s.getReg s.params.sysNumReg ≠ 1#32) (notStr : s.getReg s.params.sysNumReg ≠ 4#32)
    (notExit : s.getReg s.params.sysNumReg ≠ 10#32) : exec .ecall s = .next s :=
  (if_neg notInt).trans ((if_neg notStr).trans (if_neg notExit))

/-- The word of ECALL is the whole of its row (R74). -/
theorem decodeWord_fetchWord_ecall (word : s.memRead s.pc = 0x00000073#32) : decodeWord s.fetchWord = .ok .ecall := by
  rw [fetchWord_eq, word]
  rfl

end

/-- Printing appends to the console and changes nothing else (R33). -/
theorem print_frame (s : State) (bytes : List Byte) : SameRegs s (s.print bytes) ∧ SameMemory s (s.print bytes) ∧
    (s.print bytes).pc = s.pc ∧ (s.print bytes).ppc = s.ppc ∧ SameStatus s (s.print bytes) ∧
    (s.print bytes).params = s.params :=
  ⟨fun _ => rfl, fun _ => rfl, rfl, rfl, ⟨rfl, rfl, rfl, rfl⟩, rfl⟩

/-! ## Decimal digits (R171) -/

/-- The ASCII code of a digit. -/
theorem digit_toNat {n : Nat} (h : n < 10) : (BitVec.ofNat 8 (0x30 + n)).toNat = 0x30 + n :=
  (BitVec.toNat_ofNat ..).trans (Nat.mod_eq_of_lt (by omega))

theorem decimalDigits_of_lt {n : Nat} (h : n < 10) (fuel : Nat) :
    decimalDigits (fuel + 1) n = [BitVec.ofNat 8 (0x30 + n)] := if_pos h

theorem decimalDigits_of_ge {n : Nat} (h : 10 ≤ n) (fuel : Nat) :
    decimalDigits (fuel + 1) n = decimalDigits fuel (n / 10) ++ [BitVec.ofNat 8 (0x30 + n % 10)] :=
  if_neg (Nat.not_lt.mpr h)

theorem decimalDigits_ne_nil (fuel n : Nat) : decimalDigits (fuel + 1) n ≠ [] := by
  obtain small | large := Nat.lt_or_ge n 10
  · simp [decimalDigits_of_lt small]
  · simp [decimalDigits_of_ge large]

/-- Every byte of the text is an ASCII digit. -/
theorem mem_decimalDigits {fuel n : Nat} {d : Byte} (h : d ∈ decimalDigits fuel n) :
    0x30 ≤ d.toNat ∧ d.toNat ≤ 0x39 := by
  induction fuel generalizing n with
  | zero => cases h
  | succ fuel ih =>
    obtain small | large := Nat.lt_or_ge n 10
    · rw [decimalDigits_of_lt small, List.mem_singleton] at h
      rw [h, digit_toNat small]
      omega
    · rw [decimalDigits_of_ge large, List.mem_append, List.mem_singleton] at h
      obtain earlier | rfl := h
      · exact ih earlier
      · rw [digit_toNat (Nat.mod_lt n (by decide))]
        omega

theorem decimalValue_append_singleton (digits : List Byte) (d : Byte) :
    decimalValue (digits ++ [d]) = 10 * decimalValue digits + (d.toNat - 0x30) := List.foldl_concat ..

/-- With fuel for every digit, the text has the value of the number. -/
theorem decimalValue_decimalDigits {fuel n : Nat} (h : n < 10 ^ fuel) : decimalValue (decimalDigits fuel n) = n := by
  induction fuel generalizing n with
  | zero => exact (Nat.lt_one_iff.mp h).symm
  | succ fuel ih =>
    obtain small | large := Nat.lt_or_ge n 10
    · simp [decimalDigits_of_lt small, decimalValue, digit_toNat small]
    · rw [decimalDigits_of_ge large, decimalValue_append_singleton, ih (by omega),
        digit_toNat (Nat.mod_lt n (by decide))]
      omega

/-- With fuel for every digit, a number that is not 0 has no leading zero. -/
theorem head?_decimalDigits_ne_zero {fuel n : Nat} (pos : 0 < n) (h : n < 10 ^ fuel) :
    (decimalDigits fuel n).head? ≠ some 0x30#8 := by
  induction fuel generalizing n with
  | zero => omega
  | succ fuel ih =>
    obtain small | large := Nat.lt_or_ge n 10
    · rw [decimalDigits_of_lt small]
      intro zero
      have : 0x30 + n = 0x30 := (digit_toNat small).symm.trans (congrArg BitVec.toNat (Option.some.inj zero))
      omega
    · have rest := ih (n := n / 10) (by omega) (by omega)
      have nonempty : decimalDigits fuel (n / 10) ≠ [] := by
        cases fuel with
        | zero => omega
        | succ fuel => exact decimalDigits_ne_nil fuel _
      rwa [decimalDigits_of_ge large, List.head?_append_of_ne_nil _ nonempty]

/-- The text is a sign and the digits of the magnitude. -/
theorem decimalText_eq (v : Word) :
    decimalText v = (if v.toInt < 0 then [0x2D#8] else []) ++ decimalDigits 10 v.toInt.natAbs := by
  unfold decimalText
  split <;> rfl

/-- Ten digits are enough for every word. -/
theorem natAbs_toInt_lt (v : Word) : v.toInt.natAbs < 10 ^ 10 := by
  have lower := v.le_toInt
  have upper := v.toInt_lt
  omega

/-- Settles O43: the digits are those of `decimalDigits`, which the fuel of ten covers for every word. -/
theorem ecallPrintsInteger : Obligations.EcallPrintsInteger := by
  intro s number
  have enough := natAbs_toInt_lt (s.getReg s.params.sysArgReg)
  refine ⟨_, _, exec_ecall_printInt number, ?out, decimalDigits_ne_nil 9 _, fun _ => mem_decimalDigits, fun zero => ?lead,
    decimalValue_decimalDigits enough, print_frame ..⟩
  case out => rw [print_out, decimalText_eq, List.append_assoc]
  case lead =>
    obtain isZero | pos := Nat.eq_zero_or_pos (s.getReg s.params.sysArgReg).toInt.natAbs
    · rw [isZero]
      rfl
    · exact absurd zero (head?_decimalDigits_ne_zero pos enough)

/-! ## The string (R172) -/

section
variable {s : State} {a : Word}

/-- `SYS4_SPACE` decides for the space. -/
theorem printStr_space (space : s.sys4Space = true) : printStr a s = s.print [0x20#8] := if_pos space

/-- The walk stops at the first NUL, with the bytes before it. -/
theorem readString_eq_ok {n : Nat} (inside : a.toNat + n < s.params.memBytes)
    (text : ∀ k < n, s.mem.readByte (a.toNat + k) ≠ 0#8) (nul : s.mem.readByte (a.toNat + n) = 0#8) :
    readString s (s.params.memBytes - a.toNat) a =
      .ok ((List.range n).map fun k => s.mem.readByte (a.toNat + k)) := by
  cases walk : readString s (s.params.memBytes - a.toNat) a with
  | error q =>
    obtain ⟨-, noNul⟩ := readString_error rfl walk
    exact absurd nul (noNul _ (by omega) inside)
  | ok bytes =>
    obtain ⟨-, end_nul, before⟩ := readString_ok rfl walk
    obtain rfl : bytes.length = n := by
      obtain short | same | long := Nat.lt_trichotomy bytes.length n
      · exact absurd end_nul (text _ short)
      · exact same
      · exact absurd nul (before n long).2
    refine congrArg Except.ok (List.ext_getElem (by simp) fun k hk _ => ?_)
    simpa [hk] using (before k hk).1

/-- Where no NUL comes before the end of memory, the walk fails at the first address outside it. -/
theorem readString_eq_error {p : Word} (noNul : ∀ x, a.toNat ≤ x → x < s.params.memBytes → s.mem.readByte x ≠ 0#8)
    (first : p.toNat = max a.toNat s.params.memBytes) :
    readString s (s.params.memBytes - a.toNat) a = .error p := by
  cases walk : readString s (s.params.memBytes - a.toNat) a with
  | error q =>
    obtain ⟨same, -⟩ := readString_error rfl walk
    rw [BitVec.eq_of_toNat_eq (same.trans first.symm)]
  | ok bytes =>
    obtain ⟨inside, nul, -⟩ := readString_ok rfl walk
    exact absurd nul (noNul _ (by omega) inside)

theorem printStr_ok {bytes : List Byte} (noSpace : s.sys4Space = false)
    (walk : readString s (s.params.memBytes - a.toNat) a = .ok bytes) : printStr a s = s.print bytes := by
  simp [printStr, noSpace, walk]

theorem printStr_error {p : Word} (noSpace : s.sys4Space = false)
    (walk : readString s (s.params.memBytes - a.toNat) a = .error p) :
    printStr a s = s.raise .syscallRead s.ppc p := by
  simp [printStr, noSpace, walk]

end

/-- Settles O44: `SYS4_SPACE` decides for the space; otherwise the walk finds the NUL, or fails. -/
theorem ecallPrintsStringOrSpace : Obligations.EcallPrintsStringOrSpace := by
  rintro s _ number rfl
  rw [exec_ecall_printStr number]
  refine ⟨fun space => ?space, fun n noSpace inside text nul => ?text, fun p noSpace noNul first => ?fault⟩
  case space =>
    rw [printStr_space space]
    exact ⟨_, rfl, rfl, print_frame ..⟩
  case text =>
    rw [printStr_ok noSpace (readString_eq_ok inside text nul)]
    exact ⟨_, rfl, rfl, print_frame ..⟩
  case fault =>
    rw [printStr_error noSpace (readString_eq_error noNul first)]
    exact ⟨_, rfl, faultsAt_raise ..⟩

/-! ## Exit (R173) and the other numbers (R174) -/

/-- A run of a block that has exited takes no step (R96). -/
theorem run_exited {s : State} (exited : s.halt = .exit) (budget : Nat) : run budget s = (s, .exit) := by
  have stops (abort : Bool) : runStops abort s = some .exit := by simp [runStops, exited]
  cases budget with
  | zero => rw [run, stops, Option.getD_some]
  | succ budget => rw [run, stops]

/-- Settles O45: the step is `exit` of the fetched state, and the block it leaves is halted. -/
theorem ecallExits : Obligations.EcallExits := by
  intro s running aligned inside ecall number
  have good : s.fetchable = true := (fetchable_iff s).mpr ⟨aligned, inside⟩
  have word := decodeWord_fetchWord_ecall ecall
  have executed : exec .ecall s.fetched = .next s.fetched.exit := exec_ecall_exit number
  have next := (step_instr running good word).trans executed
  have stopped : s.fetched.exit.halt ≠ .none := nofun
  exact ⟨_, executed, next, stepOutcome_exit running good word next rfl, rfl, rfl, rfl, fun _ => rfl, fun _ => rfl, rfl,
    rfl, rfl, rfl, step_halted stopped, stepOutcome_halted stopped, run_exited rfl⟩

/-- Settles O46: the dispatch falls through, in the fetched state as in any, and the fetch is all the step does. -/
theorem ecallWithOtherNumberDoesNothing : Obligations.EcallWithOtherNumberDoesNothing := by
  refine ⟨rowIs .ecall, fun s running aligned inside ecall notInt notStr notExit => ?_⟩
  have good : s.fetchable = true := (fetchable_iff s).mpr ⟨aligned, inside⟩
  have word := decodeWord_fetchWord_ecall ecall
  have next : step s = .next s.fetched :=
    (step_instr running good word).trans (exec_ecall_other notInt notStr notExit)
  exact ⟨exec_ecall_other notInt notStr notExit, stepOutcome_ok running good word next running, _, next, rfl, rfl,
    fun _ => rfl, fun _ => rfl, rfl, running, rfl, rfl, rfl⟩

end Sys2Proof.Machine
end

section
/-! SUPPORT. Faults (60_exceptions.md): the two ways a step of a running block can fault, what each leaves unchanged, and
which instruction raises which kind. -/

namespace Sys2Proof.Machine

/-- The two ways a step faults (R182): the fetch check fails, or the instruction accesses an address outside memory. -/
inductive FaultStep (s : State) : State → Prop where
  | fetch (bad : s.fetchable = false) : FaultStep s s.fetchFault
  | access (i : Instr) (kind : FaultKind) (a : Word) (word : decodeWord s.fetchWord = .ok i)
      (cause : FaultCause i s.fetched kind) (outside : s.params.memBytes ≤ a.toNat) :
      FaultStep s (s.fetched.raise kind s.pc a)

/-- An effect that halts a running block with a fault is `raise`, for a reason R182 lists. -/
theorem effect_fault {i : Instr} {s t : State} (effect : Effect i s t) (running : s.halt = .none)
    (faulted : t.halt = .fault) :
    ∃ kind a, FaultCause i s kind ∧ s.params.memBytes ≤ a.toNat ∧ t = s.raise kind s.ppc a := by
  cases effect with
  | fault kind a cause outside => exact ⟨kind, a, cause, outside, rfl⟩
  | exit op number => cases faulted
  | write | store | print => simp [running] at faulted

/-- Every step of a running block that faults is one of the two. -/
theorem faultStep_of_step {s t : State} (running : s.halt = .none) (next : step s = .next t)
    (faulted : t.halt = .fault) : FaultStep s t := by
  cases stepCase_of_step next with
  | halted stopped => exact absurd running stopped
  | unfetchable _ bad => exact .fetch bad
  | gap g _ good word =>
    rw [decodeGap_halt, fetched_halt, running] at faulted
    split at faulted <;> cases faulted
  | instr i _ _ good word effect =>
    obtain ⟨kind, a, cause, outside, rfl⟩ := effect_fault effect running faulted
    exact .access i kind a word cause outside

/-- Settles O24: the fetch fault is raised before the fetch writes `pc` and `ppc`, every other fault after it, and
`raise` writes only `halt` and the record. -/
theorem faultsArePrecise : Obligations.FaultsArePrecise := by
  intro s t running next faulted
  cases faultStep_of_step running next faulted with
  | fetch bad =>
    have unbacked := (fetchable_eq_false s).mp bad
    exact ⟨fun _ => rfl, fun _ => rfl, rfl, rfl, rfl, _, rfl, fun _ => ⟨rfl, rfl, rfl, rfl, unbacked⟩,
      fun other => absurd rfl other⟩
  | access i kind a word cause outside =>
    exact ⟨fun _ => rfl, fun _ => rfl, rfl, rfl, rfl, _, rfl, fun fetch => absurd fetch cause.kind_ne_fetch,
      fun _ => ⟨rfl, outside, rfl, rfl⟩⟩

/-- Settles O25: the kind of the record selects one cause, and the cause names the decoded instruction. -/
theorem faultKindsNameTheirInstructions : Obligations.FaultKindsNameTheirInstructions := by
  intro s t f running next faulted recorded
  cases faultStep_of_step running next faulted with
  | fetch bad =>
    cases recorded
    exact ⟨nofun, nofun, nofun⟩
  | access i kind a word cause outside =>
    cases recorded
    obtain ⟨rfl, load⟩ | ⟨rfl, store⟩ | ⟨rfl, rfl, number, noSpace⟩ := cause
    · exact ⟨fun _ => ⟨i, word, load⟩, nofun, nofun⟩
    · exact ⟨nofun, fun _ => ⟨i, word, store⟩, nofun⟩
    · exact ⟨nofun, nofun, fun _ => ⟨word, number, noSpace⟩⟩

end Sys2Proof.Machine
end

section
/-! SUPPORT. Reset and the launch state (70_reset_and_hazards.md): what reset writes, that a launch meets the invariant,
and what every step after it leaves fixed. -/

namespace Sys2Proof.Machine

/-- No step clears `started`: a halted block keeps it, a running one sets it (R32, R91). -/
theorem step_keeps_started {s t : State} (started : s.started = true) (next : step s = .next t) :
    t.started = true := by
  by_cases running : s.halt = .none
  · exact step_started running next
  · cases (step_halted running).symm.trans next
    exact started

/-- Settles O27: no case of a step writes the parameters, and each either sets `started` or keeps it. -/
theorem parametersAreFixed : Obligations.ParametersAreFixed :=
  fun _ _ next => ⟨step_params next, (step_started · next), (step_keeps_started · next)⟩

/-- Resetting a launch state changes nothing (R200). -/
theorem doReset_launch (p : Params) (m : Memory) : (State.launch p m).doReset = State.launch p m := rfl

/-- Settles O8: reset is a launch with the parameters and the memory it finds, and `State.reset` lists no byte. -/
theorem resetWritesLaunchState : Obligations.ResetWritesLaunchState := fun s =>
  ⟨getReg_launch s.params s.mem, doReset_pc s, doReset_ppc s, doReset_halt s, doReset_fault s, doReset_gapSeen s,
    doReset_started s, doReset_out s, fun a => congrArg (·.readByte a) (doReset_mem s), doReset_params s,
    fun p m => ⟨rfl, doReset_launch p m⟩, readByte_nil⟩

/-- Settles O17: the default `RESET_PC` is even and `State.reset` lists no byte, so it is one of the launches. -/
theorem launchMeetsInvariant : Obligations.LaunchMeetsInvariant := by
  refine ⟨?reset, fun p m even hm backed => inv_launch even hm backed⟩
  case reset =>
    have even : Params.default.resetPc.toNat % 2 = 0 := by decide
    exact inv_launch even .nil nofun

end Sys2Proof.Machine
end
